-- ==== Sys2Proof/Word.lean ====
section
/-! DEFINITION. The widths the spec names: bytes, 32-bit operands and status words, 40-bit command words. -/

namespace Sys2Proof

/-- One data byte (20_memory.md R55: every access is one byte). -/
abbrev Byte := BitVec 8

/-- A 32-bit operand or status word (R75, R36, R37). -/
abbrev Word := BitVec 32

/-- A 40-bit command word (R75). -/
abbrev CommandWord := BitVec 40

end Sys2Proof
end

