-- ==== Sys2Proof/Config.lean ====
section
/-! DEFINITION. What is fixed for this hardware, the parameters the spec leaves open, and the free values. -/

namespace Sys2Proof

/-- `TX_BOUNDARY` (00_scope.md R6): the end-of-message test of the transmit framer. This hardware is
`strict`; `reference` is the documented variant (40_tx_framer.md R105, 92 D2). -/
inductive Boundary where
  | strict
  | reference
  deriving DecidableEq, Repr

/-- The parameters of 00_scope.md R6 that the spec leaves open or names variants of. They are plain data that no
operation changes, so a statement over all states holds for every value of them (assumption 6). -/
structure Params where
  /-- `TX_BOUNDARY`. -/
  boundary : Boundary
  /-- `TX_MAX_LEN`: the longest message TX_OPEN accepts. -/
  txMaxLen : Nat
  /-- `SIG_CARRIER_UP`: the status code for "carrier present". -/
  sigCarrierUp : Word
  deriving DecidableEq, Repr

namespace Config

/-- `RX_MAX_CAPACITY` (R6). -/
def rxMaxCapacity : Nat := 65536

/-- `SIG_CARRIER_LOST` (R6, R74): the code −1. -/
def sigCarrierLost : Word := 0xFFFFFFFF#32

/-- The smallest W with 2^W > m, for m ≥ 1 (R6, the rows of `W_TX` and `W_RX`). -/
def widthFor (m : Nat) : Nat := Nat.log2 m + 1

/-- `W_TX` (R6). -/
def wTx (p : Params) : Nat := widthFor (p.txMaxLen + 1)

/-- The byte that the n-th call of `draw8()` gives (R11): any value, constrained by no law (assumption 9). -/
opaque draw8 : Nat → Byte

/-- What an index of TXS holds while nothing has written it: "unspecified (any value)", R39, R60 (assumption 10). -/
opaque unwrittenTxs : Nat → Byte

/-- What an index of RXD holds while nothing has written it: "unspecified (any value)", R39, R60 (assumption 10). -/
opaque unwrittenRxd : Nat → Byte

end Config

/-- The constraints of 00_scope.md R7 on the open parameters. -/
structure Params.Ok (p : Params) : Prop where
  maxLen_pos : 1 ≤ p.txMaxLen
  maxLen_fits : p.txMaxLen + 1 < 2 ^ 32
  carrierUp_neg : p.sigCarrierUp.toInt < 0
  carrierUp_ne_lost : p.sigCarrierUp ≠ Config.sigCarrierLost

end Sys2Proof
end

