-- ==== Sys2Proof/Syntax.lean ====
section
/-! DEFINITION. The operations of the core (30_encoding.md R77) as an inductive, the items of the command stream, and
the pseudo-operations of R85. -/

namespace Sys2Proof

/-- One constructor for each row of spec/opcode_table.json. -/
inductive Instr where
  /-- TX_OPEN, format L: the message bytes; n is their number (R76, R79). -/
  | txOpen (m : List Byte)
  /-- TX_NEXT_BIT, format N. -/
  | txNextBit
  /-- TX_CLOSE, format N. -/
  | txClose
  /-- TX_RDSR, format N. -/
  | txRdsr
  /-- RX_OPEN, format C: CONTINUE, EMIT_SILENCE, and the 30-bit CAP field (R83). -/
  | rxOpen (cont silence : Bool) (cap : BitVec 30)
  /-- RX_ACCEPT, format S: the symbol (R73). -/
  | rxAccept (v : Word)
  /-- RX_EVENT, format S: the status code (R74). -/
  | rxEvent (code : Word)
  /-- RX_LINEBIT, format B: the line bit. -/
  | rxLinebit (b : Bool)
  /-- RX_RESULT, format N. -/
  | rxResult
  /-- RX_CLOSE, format N. -/
  | rxClose
  /-- RX_RDSR, format N. -/
  | rxRdsr
  deriving DecidableEq, Repr

/-- One item of the command stream: a 40-bit command word, or one byte of a TX_OPEN's data phase
(R75, R79; how a word is carried on a bus is not part of the core: assumption 1). -/
inductive Item where
  | word (w : CommandWord)
  | byte (b : Byte)
  deriving DecidableEq, Repr

/-- The pseudo-operations of R85. -/
inductive Pseudo where
  | rxCarrierLost
  | rxCarrierUp
  | txBits (k : Nat)
  | rxLinebits (bits : List Bool)
  deriving DecidableEq, Repr

end Sys2Proof
end

