-- ==== Sys2Proof/WellFormed.lean ====
section
/-! DEFINITION. Which terms of `Instr` an encoding can stand for. -/

namespace Sys2Proof

/-- An operation is well formed when its operands fit their fields. Only TX_OPEN's message can fail to: its length n is
the 32-bit operand of format L (30_encoding.md R76). Every value of the other operands is legal (R78). -/
def Instr.wf : Instr → Bool
  | .txOpen m => decide (m.length < 2 ^ 32)
  | .txNextBit => true
  | .txClose => true
  | .txRdsr => true
  | .rxOpen _ _ _ => true
  | .rxAccept _ => true
  | .rxEvent _ => true
  | .rxLinebit _ => true
  | .rxResult => true
  | .rxClose => true
  | .rxRdsr => true

end Sys2Proof
end

