-- ==== Sys2Proof/Decode.lean ====
section
/-! DEFINITION. The decoder of the command stream, total on any items and rejecting by name, and after it the encoder
(30_encoding.md R75 to R79, R83). -/

namespace Sys2Proof

/-- `opcode = cmd[39:32]` (R75). -/
def opcodeOf (w : CommandWord) : Byte := w.extractLsb' 32 8

/-- `operand = cmd[31:0]` (R75). -/
def operandOf (w : CommandWord) : Word := w.extractLsb' 0 32

/-- The word `{opcode, operand}` (R75). -/
def commandWord (opcode : Byte) (operand : Word) : CommandWord := opcode ++ operand

/-- A 1-bit field. -/
def bit1 (b : Bool) : BitVec 1 := BitVec.ofBool b

/-- RX_OPEN's operand `{CAP, EMIT_SILENCE, CONTINUE}`, format C (R76). -/
def openOperand (cont silence : Bool) (cap : BitVec 30) : Word := cap ++ bit1 silence ++ bit1 cont

/-- RX_LINEBIT's operand, format B: the line bit in bit 0, the other bits 0 (R76). -/
def lineOperand (b : Bool) : Word := (bit1 b).setWidth 32

/-- What a command word alone says. -/
inductive Head where
  /-- a whole operation. -/
  | whole (i : Instr)
  /-- a TX_OPEN whose n data bytes follow (R79). -/
  | opensMessage (n : Word)
  /-- an illegal command word (R78). -/
  | illegal
  deriving DecidableEq, Repr

/-- Format N: every operand bit must be 0 (R76, R78). -/
def decodeFormatN (x : Word) (i : Instr) : Head := if x = 0#32 then .whole i else .illegal

/-- Format B: `operand[31:1]` must be 0 (R76, R78). -/
def decodeFormatB (x : Word) (i : Bool → Instr) : Head :=
  if x.extractLsb' 1 31 = 0#31 then .whole (i (x.getLsbD 0)) else .illegal

/-- Format C: CONTINUE is bit 0, EMIT_SILENCE bit 1, CAP bits 31:2 (R76, R83). -/
def decodeFormatC (x : Word) : Head :=
  .whole (.rxOpen (x.getLsbD 0) (x.getLsbD 1) (x.extractLsb' 2 30))

/-- The opcode map of R77; every other opcode is illegal (R78). -/
def decodeHead (w : CommandWord) : Head :=
  match opcodeOf w with
  | 0x01#8 => .opensMessage (operandOf w)
  | 0x02#8 => decodeFormatN (operandOf w) .txNextBit
  | 0x03#8 => decodeFormatN (operandOf w) .txClose
  | 0x04#8 => decodeFormatN (operandOf w) .txRdsr
  | 0x11#8 => decodeFormatC (operandOf w)
  | 0x12#8 => .whole (.rxAccept (operandOf w))
  | 0x13#8 => .whole (.rxEvent (operandOf w))
  | 0x14#8 => decodeFormatB (operandOf w) .rxLinebit
  | 0x15#8 => decodeFormatN (operandOf w) .rxResult
  | 0x16#8 => decodeFormatN (operandOf w) .rxClose
  | 0x17#8 => decodeFormatN (operandOf w) .rxRdsr
  | _ => .illegal

/-- How many data bytes follow a command word: n for TX_OPEN, none otherwise (R79). -/
def dataLength (w : CommandWord) : Nat :=
  if opcodeOf w = 0x01#8 then (operandOf w).toNat else 0

/-- The start of a data phase of a given length. -/
inductive DataPhase where
  /-- all of its bytes, and the items after them. -/
  | complete (m : List Byte) (rest : List Item)
  /-- the host has not issued all of them yet. -/
  | short
  /-- a command word stands where a data byte must. -/
  | broken
  deriving DecidableEq, Repr

/-- Puts one byte before the bytes of a data phase. -/
def DataPhase.consByte (b : Byte) : DataPhase → DataPhase
  | .complete m rest => .complete (b :: m) rest
  | .short => .short
  | .broken => .broken

/-- Takes exactly `n` data bytes from the stream (R79). -/
def takeData : List Item → Nat → DataPhase
  | items, 0 => .complete [] items
  | [], _ + 1 => .short
  | .byte b :: items, n + 1 => (takeData items n).consByte b
  | .word _ :: _, _ + 1 => .broken

/-- What the front of the command stream is. -/
inductive Decoded where
  /-- a legal operation, and the rest of the stream. -/
  | instr (i : Instr) (rest : List Item)
  /-- an illegal command word (R78), and the rest of the stream. -/
  | illegal (w : CommandWord) (rest : List Item)
  /-- no whole command has been issued yet. -/
  | incomplete
  /-- a data byte stands where a command word must: the host broke R79. -/
  | strayDataByte
  /-- a command word stands inside a data phase: the host broke R79. -/
  | wordInDataPhase
  deriving DecidableEq, Repr

/-- A TX_OPEN with its data phase. -/
def DataPhase.toDecoded : DataPhase → Decoded
  | .complete m rest => .instr (.txOpen m) rest
  | .short => .incomplete
  | .broken => .wordInDataPhase

/-- The command that a word begins, given the items after the word. -/
def decodeWord (w : CommandWord) (rest : List Item) : Decoded :=
  match decodeHead w with
  | .whole i => .instr i rest
  | .opensMessage n => (takeData rest n.toNat).toDecoded
  | .illegal => .illegal w rest

/-- The decoder: the next command of the stream, from the opcode and the operand alone (R79). -/
def decode : List Item → Decoded
  | [] => .incomplete
  | .byte _ :: _ => .strayDataByte
  | .word w :: rest => decodeWord w rest

/-- The operand of an operation (R76, R83). -/
def operandBits : Instr → Word
  | .txOpen m => BitVec.ofNat 32 m.length
  | .txNextBit => 0#32
  | .txClose => 0#32
  | .txRdsr => 0#32
  | .rxOpen c s k => openOperand c s k
  | .rxAccept v => v
  | .rxEvent v => v
  | .rxLinebit b => lineOperand b
  | .rxResult => 0#32
  | .rxClose => 0#32
  | .rxRdsr => 0#32

/-- The opcode of an operation (R77). -/
def opcodeBits : Instr → Byte
  | .txOpen _ => 0x01#8
  | .txNextBit => 0x02#8
  | .txClose => 0x03#8
  | .txRdsr => 0x04#8
  | .rxOpen _ _ _ => 0x11#8
  | .rxAccept _ => 0x12#8
  | .rxEvent _ => 0x13#8
  | .rxLinebit _ => 0x14#8
  | .rxResult => 0x15#8
  | .rxClose => 0x16#8
  | .rxRdsr => 0x17#8

/-- The data phase of an operation: TX_OPEN's message, nothing for the others (R79). -/
def dataBytes : Instr → List Byte
  | .txOpen m => m
  | .txNextBit => []
  | .txClose => []
  | .txRdsr => []
  | .rxOpen _ _ _ => []
  | .rxAccept _ => []
  | .rxEvent _ => []
  | .rxLinebit _ => []
  | .rxResult => []
  | .rxClose => []
  | .rxRdsr => []

/-- The command word of an operation (R84). -/
def encodeWord (i : Instr) : CommandWord := commandWord (opcodeBits i) (operandBits i)

/-- The encoder: the command word, then the data phase (R75, R79). -/
def encode (i : Instr) : List Item := .word (encodeWord i) :: (dataBytes i).map .byte

/-- Whether the host keeps to R79, when `owed` data bytes of the command before are still to come: each word is followed
by exactly the data bytes its opcode and operand call for (the last command may be incomplete). -/
def streamOk : Nat → List Item → Bool
  | _, [] => true
  | 0, .word w :: items => streamOk (dataLength w) items
  | 0, .byte _ :: _ => false
  | owed + 1, .byte _ :: items => streamOk owed items
  | _ + 1, .word _ :: _ => false

/-- The items of one instruction numbered as spec/opcode_table.json numbers its bits: the low 40 bits are the command
word, and the k-th data byte that the word calls for is bits 40 + 8k and up; every bit at or above `nbits` is 0. -/
def tableItems (nbits w : Nat) : List Item :=
  let v := w % 2 ^ nbits
  let word : CommandWord := BitVec.ofNat 40 v
  .word word :: (List.range (dataLength word)).map fun k => .byte (BitVec.ofNat 8 (v >>> (40 + 8 * k)))

/-- The instruction the decoder reads from a word of spec/opcode_table.json (none where it refuses it). -/
def decodeTableWord (nbits w : Nat) : Option Instr :=
  match decode (tableItems nbits w) with
  | .instr i _ => some i
  | .illegal _ _ => none
  | .incomplete => none
  | .strayDataByte => none
  | .wordInDataPhase => none

end Sys2Proof
end

