-- ==== Sys2Proof/Machine/State.lean ====
section
/-! DEFINITION. The state of the core as plain data (10_state.md R23, R28), the responses it gives (30_encoding.md R80
to R82), the reasons a step can stop, and the state after power-on reset (R39). -/

namespace Sys2Proof.Machine

/-- The error codes of R81. -/
inductive ErrorCode where
  | ok
  | invalidInput
  | bufferOverflow
  | streamEnded
  | noSession
  | busy
  | illegalOp
  deriving DecidableEq, Repr

/-- One response value: TX_NEXT_BIT's line bit, a 32-bit word, or a byte of RX_RESULT (R80: "a list of words or bytes,
each operation rule saying what it holds"; assumption 18). -/
inductive Value where
  | bit (b : Bool)
  | word (w : Word)
  | byte (b : Byte)
  deriving DecidableEq, Repr

/-- The events of R82. -/
inductive Event where
  /-- `EVT_STATUS(code)`. -/
  | status (code : Word)
  /-- `EVT_FRAMING_ERROR(byte)`. -/
  | framingError (b : Byte)
  deriving DecidableEq, Repr

/-- The response `(err, values, events)` of R80, with the recorded value of R201 when the operation raised
(assumption 5). -/
structure Response where
  err : ErrorCode
  recorded : Option (BitVec 40)
  values : List Value
  events : List Event
  deriving DecidableEq, Repr

/-- A byte space (20_memory.md R50): the bytes written so far, each with its index, indices strictly rising. An index not
listed holds no value of its own: R39 and R60 call it unspecified (assumption 10). -/
abbrev Memory := List Host.Cell

/-- The transmit unit (R23). -/
structure TxUnit where
  /-- `TX.ACTIVE`. -/
  active : Bool
  /-- `TX.BYTE_COUNT`, W_TX bits (assumption 12). -/
  byteCount : Nat
  /-- `TX.BYTE_CURSOR`, W_TX bits (assumption 12). -/
  byteCursor : Nat
  /-- `TX.BIT_PHASE`. -/
  bitPhase : BitVec 4
  /-- `TXS`. -/
  txs : Memory
  /-- The model's own: how many bytes `draw8()` has given (assumption 9). -/
  draws : Nat
  deriving DecidableEq, Repr

/-- The values of `RX.STATE` (R30). -/
inductive CarrierState where
  | listening
  | carrierPresent
  | carrierLost
  | streamEnded
  deriving DecidableEq, Repr

/-- The values of `RX.RXD_STATE` (R28, 43_rx_deframer.md R180). -/
inductive DeframerState where
  | hunt
  | data
  deriving DecidableEq, Repr

/-- The receive unit (R28). -/
structure RxUnit where
  /-- `RX.ACTIVE`. -/
  active : Bool
  /-- `RX.CAPACITY`, W_RX = 17 bits. -/
  capacity : BitVec 17
  /-- `RX.WRITE_CURSOR`, W_RX = 17 bits. -/
  writeCursor : BitVec 17
  /-- `RX.CONTINUE`. -/
  cont : Bool
  /-- `RX.EMIT_SILENCE`. -/
  emitSilence : Bool
  /-- `RX.STATE`. -/
  state : CarrierState
  /-- `RX.EOS`. -/
  eos : Bool
  /-- `RX.OVF`. -/
  ovf : Bool
  /-- `RX.RXD_STATE`. -/
  rxdState : DeframerState
  /-- `RX.RXD_COUNT`. -/
  rxdCount : BitVec 4
  /-- `RX.RXD_SHIFT`. -/
  rxdShift : Byte
  /-- `RXD`. -/
  rxd : Memory
  deriving DecidableEq, Repr

/-- The whole state: the two units (R20), the parameters (00_scope.md R6), the command stream not yet taken (R75) and
the responses given so far, oldest first (R80). -/
structure State where
  tx : TxUnit
  rx : RxUnit
  params : Params
  commands : List Item
  responses : List Response
  deriving DecidableEq, Repr

/-- Why a step can fault. The core has no traps (60_exceptions.md R200); these stop the model only in states that no run
from reset reaches (R59). -/
inductive Fault where
  /-- TX_NEXT_BIT would read TXS at an index above TX_MAX_LEN, which does not exist (R50). Safe: the model stops. -/
  | txsIndexAbsent (index : Nat)
  /-- The intake would write, or RX_RESULT read, RXD at an index not below RX_MAX_CAPACITY, which does not exist (R50).
  Safe: the model stops. -/
  | rxdIndexAbsent (index : Nat)
  deriving DecidableEq, Repr

/-- Why a step can be refused. -/
inductive Refusal where
  /-- Raised by `exec` for an instruction whose meaning is not written; no arm uses it. Safe. -/
  | notModelled (mnemonic : String)
  /-- Raised by `step` when a data byte stands where a command word must: the host broke R79, and the spec gives that
  host no meaning (R242). Safe. -/
  | strayDataByte
  /-- Raised by `step` when a command word stands inside a data phase: the host broke R79 (R242). Safe. -/
  | wordInDataPhase
  deriving DecidableEq, Repr

/-- The transmit unit after power-on reset (R39). -/
def TxUnit.reset : TxUnit where
  active := false
  byteCount := 0
  byteCursor := 0
  bitPhase := 0#4
  txs := []
  draws := 0

/-- The receive unit after power-on reset (R39). -/
def RxUnit.reset : RxUnit where
  active := false
  capacity := 0#17
  writeCursor := 0#17
  cont := false
  emitSilence := false
  state := .listening
  eos := false
  ovf := false
  rxdState := .hunt
  rxdCount := 0#4
  rxdShift := 0#8
  rxd := []

/-- The parameters' values in the reset state: STRICT is this hardware's (R6); 16 is the model's choice for the open
TX_MAX_LEN (assumption 6); −2 is the spec's default for SIG_CARRIER_UP (assumption 7). -/
def defaultParams : Params where
  boundary := .strict
  txMaxLen := 16
  sigCarrierUp := 0xFFFFFFFE#32

/-- The machine right after power-on reset (R39, R230): it waits for the first command word (R231). -/
def State.reset : State where
  tx := .reset
  rx := .reset
  params := defaultParams
  commands := []
  responses := []

end Sys2Proof.Machine
end

