-- ==== Sys2Proof/Machine/Operands.lean ====
section
/-! DEFINITION. How the operations read their operands (30_encoding.md R72, R73, R83) and the codes of the named
states, and bit-field helpers. -/

namespace Sys2Proof.Machine

/-- Whether a symbol is a status code: v < 0 as `sext_32` reads it (R73). -/
def isStatusCode (v : Word) : Bool := decide (v.toInt < 0)

/-- The byte a data symbol stores: `v & 0xFF` (R73). -/
def symbolByte (v : Word) : Byte := (v &&& 0xFF#32).setWidth 8

/-- The capacity RX_OPEN asks for: CAP, or RX_MAX_CAPACITY if CAP is 0 (R83). -/
def requestedCapacity (cap : BitVec 30) : Nat :=
  if cap = 0#30 then Config.rxMaxCapacity else cap.toNat

/-- The data bit at frame position p, 1 to 8, by masking: `(b & (1 << (p − 1))) != 0` (R72). -/
def maskedBit (b : Byte) (p : Nat) : Bool := decide (b &&& (1#8 <<< (p - 1)) ≠ 0#8)

/-- `v[i] <- b` on the deframer's shift register (R181). -/
def putBit (v : Byte) (i : Nat) (b : Bool) : Byte :=
  if b then v ||| (1#8 <<< i) else v &&& ~~~(1#8 <<< i)

/-- The encoding of `RX.STATE` (10_state.md R30). -/
def CarrierState.code : CarrierState → BitVec 2
  | .listening => 0#2
  | .carrierPresent => 1#2
  | .carrierLost => 2#2
  | .streamEnded => 3#2

/-- The encoding of `RX.RXD_STATE` (R28). -/
def DeframerState.code : DeframerState → BitVec 1
  | .hunt => 0#1
  | .data => 1#1

/-- The numeric value of an error code (R81). -/
def ErrorCode.code : ErrorCode → BitVec 8
  | .ok => 0#8
  | .invalidInput => 1#8
  | .bufferOverflow => 2#8
  | .streamEnded => 3#8
  | .noSession => 4#8
  | .busy => 5#8
  | .illegalOp => 6#8

end Sys2Proof.Machine
end

