-- ==== Sys2Proof/Machine/Flags.lean ====
section
/-! DEFINITION. The derived signals and the status words: `Framing`, `TX.DONE` (10_state.md R27), TXSR0 to TXSR2 (R36),
RXSR0 to RXSR2 (R37) and the output port `emit_silence` (R38). -/

namespace Sys2Proof.Machine

/-- `Framing()` (R27): whether a byte remains to be framed, under either boundary test. -/
def framing (bd : Boundary) (tx : TxUnit) : Bool :=
  match bd with
  | .strict => decide (tx.byteCursor < tx.byteCount)
  | .reference => decide (tx.byteCursor ≤ tx.byteCount)

/-- `TX.DONE` (R27). -/
def TxUnit.done (bd : Boundary) (tx : TxUnit) : Bool := tx.active && !framing bd tx

/-- TXSR0 (R36, R103). -/
def txsr0 (bd : Boundary) (tx : TxUnit) : Word :=
  0#24 ++ tx.bitPhase ++ 0#2 ++ bit1 (tx.done bd) ++ bit1 tx.active

/-- TXSR1 (R36). -/
def txsr1 (tx : TxUnit) : Word := BitVec.ofNat 32 tx.byteCursor

/-- TXSR2 (R36). -/
def txsr2 (tx : TxUnit) : Word := BitVec.ofNat 32 tx.byteCount

/-- RXSR0 (R37, R135). -/
def rxsr0 (rx : RxUnit) : Word :=
  0#12 ++ rx.rxdCount ++ 0#3 ++ rx.rxdState.code ++ 0#2 ++ bit1 rx.emitSilence ++ bit1 rx.cont ++
    0#2 ++ rx.state.code ++ 0#1 ++ bit1 rx.ovf ++ bit1 rx.eos ++ bit1 rx.active

/-- RXSR1 (R37). -/
def rxsr1 (rx : RxUnit) : Word := rx.writeCursor.setWidth 32

/-- RXSR2 (R37). -/
def rxsr2 (rx : RxUnit) : Word := rx.capacity.setWidth 32

/-- The output port `emit_silence` (R38). -/
def emitSilencePort (s : State) : Bool := s.rx.active && s.rx.emitSilence

end Sys2Proof.Machine
end

