-- ==== Sys2Proof/Machine/Ops.lean ====
section
/-! DEFINITION. The operations every meaning is written over: the byte spaces (20_memory.md), `respond` and `raise`
(00_scope.md R11), ending an operation, the session checks (60_exceptions.md R206), the byte intake (41_rx_intake.md
R132) and the status handler (42_rx_status.md R161). -/

namespace Sys2Proof.Machine

/-! ## Byte spaces -/

/-- `MemRead(S, a, 1)` (R10): the byte at index `a`, none where nothing has been written. -/
def Memory.read : Memory → Nat → Option Byte
  | [], _ => none
  | (k, v) :: cells, a => if k = a then some v else Memory.read cells a

/-- `MemWrite(S, a, 1, v)` (R10), keeping the indices strictly rising. -/
def Memory.write : Memory → Nat → Byte → Memory
  | [], a, v => [(a, v)]
  | (k, w) :: cells, a, v =>
    if a < k then (a, v) :: (k, w) :: cells
    else if a = k then (a, v) :: cells
    else (k, w) :: Memory.write cells a v

/-- Writes bytes at consecutive indices from `a` on. -/
def Memory.writeAll (m : Memory) (a : Nat) : List Byte → Memory
  | [] => m
  | b :: bs => Memory.writeAll (m.write a b) (a + 1) bs

/-- The canonical form of a byte space: indices strictly rising. An unlisted index holds no value, so no entry can equal
what an unlisted one reads as. -/
abbrev Memory.wf (m : Memory) : Prop := m.Pairwise fun c d => c.1 < d.1

/-- The byte TXS holds at an index: a free value where nothing has been written (R39, R60). -/
def TxUnit.byteAt (tx : TxUnit) (i : Nat) : Byte := (tx.txs.read i).getD (Config.unwrittenTxs i)

/-- The byte RXD holds at an index: a free value where nothing has been written (R39, R60). -/
def RxUnit.byteAt (rx : RxUnit) (i : Nat) : Byte := (rx.rxd.read i).getD (Config.unwrittenRxd i)

/-- A read of TXS by TX_NEXT_BIT: indices 0 to TX_MAX_LEN exist (R50). -/
def readTxs (p : Params) (tx : TxUnit) (i : Nat) : Except Fault Byte :=
  if i ≤ p.txMaxLen then .ok (tx.byteAt i) else .error (.txsIndexAbsent i)

/-- The bytes RXD[0 .. n − 1] for RX_RESULT: indices below RX_MAX_CAPACITY exist (R50). -/
def readRxd (rx : RxUnit) (n : Nat) : Except Fault (List Byte) :=
  if n ≤ Config.rxMaxCapacity then .ok ((List.range n).map rx.byteAt)
  else .error (.rxdIndexAbsent Config.rxMaxCapacity)

/-! ## Responses -/

/-- `return` (R11): the operation ends with OK, giving the values and events added so far. -/
def answer (values : List Value) (events : List Event) : Response where
  err := .ok
  recorded := none
  values := values
  events := events

/-- `raise E(info)` (R11): the one way an error ends an operation. It transfers no control, saves no pc or status and
changes no mode (60_exceptions.md R200, R207); values and events added before it are still given (R80), and state
written before it stays written. There is no return from it. -/
def raise (e : ErrorCode) (info : BitVec 40) (values : List Value) (events : List Event) :
    Response where
  err := e
  recorded := some info
  values := values
  events := events

/-- What a TX operation comes to: the unit and the response it ends with. -/
abbrev TxResult := Except Fault (TxUnit × Response)

/-- What an RX operation comes to. -/
abbrev RxResult := Except Fault (RxUnit × Response)

/-- The state after a TX operation: only TX changes (R20), and the host has one more response (R80). -/
def State.endTx (s : State) (tx : TxUnit) (r : Response) : State :=
  { s with tx := tx, responses := s.responses ++ [r] }

/-- The state after an RX operation: only RX changes (R20), and the host has one more response (R80). -/
def State.endRx (s : State) (rx : RxUnit) (r : Response) : State :=
  { s with rx := rx, responses := s.responses ++ [r] }

/-- Ends a TX operation. -/
def finishTx (s : State) : TxResult → Host.Outcome State Fault Refusal
  | .ok (tx, r) => .next (s.endTx tx r)
  | .error f => .fault f

/-- Ends an RX operation. -/
def finishRx (s : State) : RxResult → Host.Outcome State Fault Refusal
  | .ok (rx, r) => .next (s.endRx rx r)
  | .error f => .fault f

/-! ## Session checks (R206) -/

/-- A per-session TX operation: NO_SESSION, with the values given so far, when TX has no session (R201). -/
def inTxSession (tx : TxUnit) (operand : Word) (sofar : List Value) (body : TxResult) : TxResult :=
  if tx.active then body else .ok (tx, raise .noSession (operand.setWidth 40) sofar [])

/-- A per-session RX operation: NO_SESSION when RX has no session (R201). -/
def inRxSession (rx : RxUnit) (operand : Word) (body : RxResult) : RxResult :=
  if rx.active then body else .ok (rx, raise .noSession (operand.setWidth 40) [] [])

/-! ## RX: deframer reset, intake, status handler -/

/-- `RX.RXD_STATE <- HUNT; RX.RXD_COUNT <- 0; RX.RXD_SHIFT <- 0` (R130, R134, R161, R181). -/
def RxUnit.toHunt (rx : RxUnit) : RxUnit :=
  { rx with rxdState := .hunt, rxdCount := 0#4, rxdShift := 0#8 }

/-- The writes of BUFFER_OVERFLOW (R132). -/
def RxUnit.overflow (rx : RxUnit) : RxUnit :=
  { rx with ovf := true, eos := true, state := .streamEnded }

/-- The writes of a stored byte (R132). -/
def RxUnit.store (rx : RxUnit) (b : Byte) : RxUnit :=
  { rx with rxd := rx.rxd.write rx.writeCursor.toNat b, writeCursor := rx.writeCursor + 1#17 }

/-- `Intake(b)` (R132), shared by RX_ACCEPT and the deframer. -/
def intake (b : Byte) (rx : RxUnit) : RxResult :=
  if rx.eos then .ok (rx, raise .streamEnded (b.setWidth 40) [] [])
  else if rx.capacity ≤ rx.writeCursor then
    .ok (rx.overflow, raise .bufferOverflow (b.setWidth 40) [] [])
  else if rx.writeCursor.toNat < Config.rxMaxCapacity then .ok (rx.store b, answer [] [])
  else .error (.rxdIndexAbsent rx.writeCursor.toNat)

/-- The writes of a carrier-lost code (R161). -/
def RxUnit.loseCarrier (rx : RxUnit) : RxUnit :=
  if rx.cont then { rx.toHunt with state := .carrierLost }
  else { rx.toHunt with state := .streamEnded, eos := true }

/-- The state part of `Status(code)` (R160, R161); the event it emits is `Event.status code` (R162). -/
def applyStatus (p : Params) (code : Word) (rx : RxUnit) : RxUnit :=
  if rx.state = .streamEnded then rx
  else if code = Config.sigCarrierLost then rx.loseCarrier
  else if code = p.sigCarrierUp then { rx with state := .carrierPresent }
  else rx

/-- `Status(code)` (R161), as an operation that ends with it: it emits its event and never raises. -/
def statusHandler (p : Params) (code : Word) (rx : RxUnit) : RxResult :=
  .ok (applyStatus p code rx, answer [] [.status code])

/-! ## The command decoder's own outcomes -/

/-- An illegal command word (R78): ILLEGAL_OP with the word recorded, no state written, no event. -/
def illegalOp (w : CommandWord) (s : State) : Host.Outcome State Fault Refusal :=
  .next { s with responses := s.responses ++ [raise .illegalOp w [] []] }

/-- No whole command has been issued: the core waits (R231; assumption 2). -/
def awaitCommand (s : State) : Host.Outcome State Fault Refusal := .next s

/-- The command stream with its front command taken. -/
def State.take (s : State) (rest : List Item) : State := { s with commands := rest }

/-- Power-on reset (R230): every field of both units to its value of R39. The parameters are the hardware's, the stream
and the responses the host's, and `draws` the model's (assumption 20). -/
def powerOnReset (s : State) : State :=
  { s with tx := { TxUnit.reset with draws := s.tx.draws }, rx := RxUnit.reset }

end Sys2Proof.Machine
end

