-- ==== Sys2Proof/Machine/RxDeframer.lean ====
section
/-! DEFINITION. The bit-level receive framer (43_rx_deframer.md). -/

namespace Sys2Proof.Machine

/-- The writes of a start bit (R181). -/
def RxUnit.startFrame (rx : RxUnit) : RxUnit :=
  { rx with rxdState := .data, rxdCount := 0#4, rxdShift := 0#8 }

/-- The writes of a data bit, least significant first (R181). -/
def RxUnit.takeBit (rx : RxUnit) (b : Bool) : RxUnit :=
  { rx with rxdShift := putBit rx.rxdShift rx.rxdCount.toNat b, rxdCount := rx.rxdCount + 1#4 }

/-- The stop-bit position (R181, R182): the deframer is back in HUNT before the byte is handed on or discarded. -/
def judgeStopBit (b : Bool) (rx : RxUnit) : RxResult :=
  if b then intake rx.rxdShift rx.toHunt
  else .ok (rx.toHunt, answer [] [.framingError rx.rxdShift])

/-- One line bit inside a session (R181). -/
def lineBit (b : Bool) (rx : RxUnit) : RxResult :=
  match rx.rxdState with
  | .hunt => if b then .ok (rx, answer [] []) else .ok (rx.startFrame, answer [] [])
  | .data =>
    if rx.rxdCount < 8#4 then .ok (rx.takeBit b, answer [] []) else judgeStopBit b rx

/-- RX_LINEBIT (R181). -/
def rxLinebit (b : Bool) (rx : RxUnit) : RxResult :=
  inRxSession rx (lineOperand b) (lineBit b rx)

/-- The meaning of RX_LINEBIT (R181). -/
def execRxLinebit (b : Bool) (s : State) : Host.Outcome State Fault Refusal :=
  finishRx s (rxLinebit b s.rx)

end Sys2Proof.Machine
end

