-- ==== Sys2Proof/Machine/RxIntake.lean ====
section
/-! DEFINITION. The receive session and byte intake operations (41_rx_intake.md). -/

namespace Sys2Proof.Machine

/-- The writes of an RX_OPEN that succeeds (R130). RXD is not cleared (20_memory.md R60). -/
def RxUnit.opened (cont silence : Bool) (cap : Nat) (rx : RxUnit) : RxUnit where
  active := true
  capacity := BitVec.ofNat 17 cap
  writeCursor := 0#17
  cont := cont
  emitSilence := silence
  state := .listening
  eos := false
  ovf := false
  rxdState := .hunt
  rxdCount := 0#4
  rxdShift := 0#8
  rxd := rx.rxd

/-- RX_OPEN (R130): BUSY, then INVALID_INPUT, then a new session. -/
def rxOpen (cont silence : Bool) (cap : BitVec 30) (rx : RxUnit) : RxResult :=
  if rx.active then .ok (rx, raise .busy ((openOperand cont silence cap).setWidth 40) [] [])
  else if Config.rxMaxCapacity < requestedCapacity cap then
    .ok (rx, raise .invalidInput (cap.setWidth 40) [] [])
  else .ok (rx.opened cont silence (requestedCapacity cap), answer [] [])

/-- RX_ACCEPT (R131): a negative symbol is a status code, any other is data. -/
def rxAccept (p : Params) (v : Word) (rx : RxUnit) : RxResult :=
  inRxSession rx v (if isStatusCode v then statusHandler p v rx else intake (symbolByte v) rx)

/-- RX_RESULT (R133): the count and exactly that many bytes. -/
def rxResult (rx : RxUnit) : RxResult :=
  inRxSession rx 0#32
    ((readRxd rx rx.writeCursor.toNat).map fun bs =>
      (rx, answer (.word (rx.writeCursor.setWidth 32) :: bs.map .byte) []))

/-- The writes of RX_CLOSE (R134): every RX field to its reset value, RXD unspecified. -/
def RxUnit.closed : RxUnit where
  active := false
  capacity := 0#17
  writeCursor := 0#17
  cont := false
  emitSilence := false
  state := .listening
  eos := false
  ovf := false
  rxdState := .hunt
  rxdCount := 0#4
  rxdShift := 0#8
  rxd := []

/-- RX_CLOSE (R134). -/
def rxClose (rx : RxUnit) : RxResult :=
  inRxSession rx 0#32 (.ok (RxUnit.closed, answer [] []))

/-- RX_RDSR (R135): legal with or without a session. -/
def rxRdsr (rx : RxUnit) : RxResult :=
  .ok (rx, answer [.word (rxsr0 rx), .word (rxsr1 rx), .word (rxsr2 rx)] [])

/-- The meaning of RX_OPEN (R130). -/
def execRxOpen (cont silence : Bool) (cap : BitVec 30) (s : State) :
    Host.Outcome State Fault Refusal :=
  finishRx s (rxOpen cont silence cap s.rx)

/-- The meaning of RX_ACCEPT (R131). -/
def execRxAccept (v : Word) (s : State) : Host.Outcome State Fault Refusal :=
  finishRx s (rxAccept s.params v s.rx)

/-- The meaning of RX_RESULT (R133). -/
def execRxResult (s : State) : Host.Outcome State Fault Refusal :=
  finishRx s (rxResult s.rx)

/-- The meaning of RX_CLOSE (R134). -/
def execRxClose (s : State) : Host.Outcome State Fault Refusal :=
  finishRx s (rxClose s.rx)

/-- The meaning of RX_RDSR (R135). -/
def execRxRdsr (s : State) : Host.Outcome State Fault Refusal :=
  finishRx s (rxRdsr s.rx)

end Sys2Proof.Machine
end

