-- ==== Sys2Proof/Machine/RxStatus.lean ====
section
/-! DEFINITION. The status sink (42_rx_status.md). The status handler itself is shared with RX_ACCEPT: Machine/Ops.lean. -/

namespace Sys2Proof.Machine

/-- RX_EVENT (R163): any code, negative or not, goes to the status handler; none is data. -/
def rxEvent (p : Params) (code : Word) (rx : RxUnit) : RxResult :=
  inRxSession rx code (statusHandler p code rx)

/-- The meaning of RX_EVENT (R163). -/
def execRxEvent (code : Word) (s : State) : Host.Outcome State Fault Refusal :=
  finishRx s (rxEvent s.params code s.rx)

end Sys2Proof.Machine
end

