-- ==== Sys2Proof/Machine/Tx.lean ====
section
/-! DEFINITION. The transmit framer's operations (40_tx_framer.md). Each unit operation is written for either boundary
and any parameters; the machine's meaning applies it to the parameters State holds. -/

namespace Sys2Proof.Machine

/-- The writes of a TX_OPEN that succeeds (R100). The REFERENCE variant also writes a drawn byte at `TXS[n]`. -/
def TxUnit.opened (bd : Boundary) (m : List Byte) (tx : TxUnit) : TxUnit :=
  match bd with
  | .strict =>
    { active := true, byteCount := m.length, byteCursor := 0, bitPhase := 0#4,
      txs := tx.txs.writeAll 0 m, draws := tx.draws }
  | .reference =>
    { active := true, byteCount := m.length, byteCursor := 0, bitPhase := 0#4,
      txs := (tx.txs.writeAll 0 m).write m.length (Config.draw8 tx.draws), draws := tx.draws + 1 }

/-- TX_OPEN (R100): BUSY, then INVALID_INPUT, then a new session. The indices written are in TXS because
n ≤ TX_MAX_LEN. -/
def txOpen (p : Params) (m : List Byte) (tx : TxUnit) : TxResult :=
  if tx.active then .ok (tx, raise .busy (BitVec.ofNat 40 m.length) [] [])
  else if m.length = 0 ∨ p.txMaxLen < m.length then
    .ok (tx, raise .invalidInput (BitVec.ofNat 40 m.length) [] [])
  else .ok (tx.opened p.boundary m, answer [] [])

/-- The bit at the current frame position (R101): start bit, stop bit, or a data bit read from TXS. -/
def currentBit (p : Params) (tx : TxUnit) : Except Fault Bool :=
  if tx.bitPhase = 0#4 then .ok false
  else if tx.bitPhase = 9#4 then .ok true
  else (readTxs p tx tx.byteCursor).map fun b => maskedBit b tx.bitPhase.toNat

/-- The move to the next frame position (R101): phase 10 becomes phase 0 of the next byte. -/
def TxUnit.advance (tx : TxUnit) : TxUnit :=
  if tx.bitPhase + 1#4 = 10#4 then { tx with bitPhase := 0#4, byteCursor := tx.byteCursor + 1 }
  else { tx with bitPhase := tx.bitPhase + 1#4 }

/-- The framing part of TX_NEXT_BIT (R101). -/
def sendBit (p : Params) (tx : TxUnit) : TxResult :=
  (currentBit p tx).map fun b => (tx.advance, answer [.bit b] [])

/-- TX_NEXT_BIT (R101): 1 with NO_SESSION outside a session, the idle 1 once exhausted, else the next frame bit. -/
def txNextBit (p : Params) (tx : TxUnit) : TxResult :=
  inTxSession tx 0#32 [.bit true]
    (if framing p.boundary tx then sendBit p tx else .ok (tx, answer [.bit true] []))

/-- The writes of TX_CLOSE (R102): every TX field to its reset value, TXS unspecified. -/
def TxUnit.closed (tx : TxUnit) : TxUnit :=
  { active := false, byteCount := 0, byteCursor := 0, bitPhase := 0#4, txs := [], draws := tx.draws }

/-- TX_CLOSE (R102). -/
def txClose (tx : TxUnit) : TxResult :=
  inTxSession tx 0#32 [] (.ok (tx.closed, answer [] []))

/-- TX_RDSR (R103): legal with or without a session. -/
def txRdsr (p : Params) (tx : TxUnit) : TxResult :=
  .ok (tx, answer [.word (txsr0 p.boundary tx), .word (txsr1 tx), .word (txsr2 tx)] [])

/-- The meaning of TX_OPEN (R100). -/
def execTxOpen (m : List Byte) (s : State) : Host.Outcome State Fault Refusal :=
  finishTx s (txOpen s.params m s.tx)

/-- The meaning of TX_NEXT_BIT (R101). -/
def execTxNextBit (s : State) : Host.Outcome State Fault Refusal :=
  finishTx s (txNextBit s.params s.tx)

/-- The meaning of TX_CLOSE (R102). -/
def execTxClose (s : State) : Host.Outcome State Fault Refusal :=
  finishTx s (txClose s.tx)

/-- The meaning of TX_RDSR (R103). -/
def execTxRdsr (s : State) : Host.Outcome State Fault Refusal :=
  finishTx s (txRdsr s.params s.tx)

end Sys2Proof.Machine
end

