-- ==== Sys2Proof/Machine/Dispatch.lean ====
section
/-! DEFINITION. One arm for each operation of 30_encoding.md R77. -/

namespace Sys2Proof.Machine

def exec (i : Instr) (s : State) : Host.Outcome State Fault Refusal :=
  match i with
  -- the transmit framer
  | .txOpen m => Sys2Proof.Machine.execTxOpen m s
  | .txNextBit => Sys2Proof.Machine.execTxNextBit s
  | .txClose => Sys2Proof.Machine.execTxClose s
  | .txRdsr => Sys2Proof.Machine.execTxRdsr s
  -- the receive unit
  | .rxOpen cont silence cap => Sys2Proof.Machine.execRxOpen cont silence cap s
  | .rxAccept v => Sys2Proof.Machine.execRxAccept v s
  | .rxEvent code => Sys2Proof.Machine.execRxEvent code s
  | .rxLinebit b => Sys2Proof.Machine.execRxLinebit b s
  | .rxResult => Sys2Proof.Machine.execRxResult s
  | .rxClose => Sys2Proof.Machine.execRxClose s
  | .rxRdsr => Sys2Proof.Machine.execRxRdsr s

end Sys2Proof.Machine
end

