-- ==== Sys2Proof/Machine/Step.lean ====
section
/-! DEFINITION. One step of the core: it takes the next command of the stream and runs it to completion
(10_state.md R21, 30_encoding.md R75, R79). -/

namespace Sys2Proof.Machine

/-- One step: the next command runs; an illegal word raises ILLEGAL_OP (R78); with no whole command the core waits
(R231); a stream that breaks R79 is refused. -/
def step (s : State) : Host.Outcome State Fault Refusal :=
  match decode s.commands with
  | .instr i rest => exec i (s.take rest)
  | .illegal w rest => illegalOp w (s.take rest)
  | .incomplete => awaitCommand s
  | .strayDataByte => .refused .strayDataByte
  | .wordInDataPhase => .refused .wordInDataPhase

/-- The state with one instruction of spec/opcode_table.json put at the front of the command stream, where the step
takes its next command (assumption 17). -/
def State.withFetchWord (s : State) (nbits w : Nat) : State :=
  { s with commands := tableItems nbits w ++ s.commands }

end Sys2Proof.Machine
end

