-- ==== Sys2Proof/Machine/Assembler.lean ====
section
/-! DEFINITION. The pseudo-operations of 30_encoding.md R85 and the textual form of R84: what the text of a line stands
for, as operations and as items of the command stream. The machine itself never reads text (assumption 22). -/

namespace Sys2Proof.Machine.Assembler

open Sys2Proof

/-- The expansion of a pseudo-operation (R85). -/
def expand (p : Params) : Pseudo → List Instr
  | .rxCarrierLost => [.rxEvent Config.sigCarrierLost]
  | .rxCarrierUp => [.rxEvent p.sigCarrierUp]
  | .txBits k => List.replicate k .txNextBit
  | .rxLinebits bits => bits.map .rxLinebit

/-- Space, tab and carriage return separate the parts of a line. -/
def isBlank (c : Char) : Bool := c.toNat = 32 || c.toNat = 9 || c.toNat = 13

/-- Drops blanks at both ends. -/
def trim (cs : List Char) : List Char :=
  ((cs.dropWhile isBlank).reverse.dropWhile isBlank).reverse

/-- Cuts a text at every character of a given code. -/
def cutAt (code : Nat) : List Char → List (List Char)
  | [] => [[]]
  | c :: cs =>
    if c.toNat = code then [] :: cutAt code cs
    else match cutAt code cs with
      | [] => [[c]]
      | piece :: pieces => (c :: piece) :: pieces

/-- Drops a comment, which `;` starts outside a quoted text (R84). -/
def dropComment : Bool → List Char → List Char
  | _, [] => []
  | quoted, c :: cs =>
    if c.toNat = 59 && !quoted then []
    else c :: dropComment (if c.toNat = 34 then !quoted else quoted) cs

/-- The value of a digit, in either base. -/
def digit? (base : Nat) (c : Char) : Option Nat :=
  let n := c.toNat
  let v := if 48 ≤ n ∧ n ≤ 57 then n - 48
    else if 65 ≤ n ∧ n ≤ 70 then n - 55
    else if 97 ≤ n ∧ n ≤ 102 then n - 87
    else 16
  if v < base then some v else none

/-- A run of digits after those already read. -/
def digits? (base : Nat) : List Char → Nat → Option Nat
  | [], sofar => some sofar
  | c :: cs, sofar => (digit? base c).bind fun d => digits? base cs (sofar * base + d)

/-- A number, decimal or hex with 0x (R84). -/
def number? : List Char → Option Nat
  | [] => none
  | [c] => digits? 10 [c] 0
  | c :: d :: cs =>
    if c.toNat = 48 && (d.toNat = 120 || d.toNat = 88) then
      if cs.isEmpty then none else digits? 16 cs 0
    else digits? 10 (c :: d :: cs) 0

/-- A number below a bound. -/
def numberBelow? (bound : Nat) (cs : List Char) : Option Nat :=
  (number? (trim cs)).bind fun n => if n < bound then some n else none

/-- An S operand, the one form that may be negative (R84): `v[31:0]` of a 32-bit value. -/
def signed? (cs : List Char) : Option Word :=
  match trim cs with
  | [] => none
  | c :: ds =>
    if c.toNat = 45 then
      (number? ds).bind fun n => if n ≤ 2 ^ 31 then some (BitVec.ofInt 32 (-(n : Int))) else none
    else (numberBelow? (2 ^ 32) (c :: ds)).map (BitVec.ofNat 32)

/-- One line bit. -/
def lineBit? (cs : List Char) : Option Bool := (numberBelow? 2 cs).map fun n => decide (n = 1)

/-- A character's code as a message byte (R84: "a string gives its character codes with no terminator"). -/
def charByte? (c : Char) : Option Byte := if c.toNat < 256 then some (BitVec.ofNat 8 c.toNat) else none

/-- TX_OPEN's operands: a quoted text, or bytes separated by commas (R84). -/
def message? (cs : List Char) : Option (List Byte) :=
  match cs with
  | [] => none
  | c :: rest =>
    if c.toNat = 34 then
      match rest.reverse with
      | [] => none
      | q :: inner =>
        if q.toNat = 34 && inner.all (fun d => d.toNat != 34) then inner.reverse.mapM charByte?
        else none
    else (cutAt 44 (c :: rest)).mapM fun piece => (numberBelow? 256 piece).map (BitVec.ofNat 8)

/-- RX_OPEN's three items. -/
structure OpenItems where
  cont : Bool
  silence : Bool
  cap : BitVec 30
  deriving DecidableEq, Repr

/-- Reads one item `name=value` of RX_OPEN (R84). -/
def openItem? (items : OpenItems) (cs : List Char) : Option OpenItems :=
  match cutAt 61 cs with
  | [name, value] =>
    if trim name = "cont".toList then (lineBit? value).map fun b => { items with cont := b }
    else if trim name = "silence".toList then
      (lineBit? value).map fun b => { items with silence := b }
    else if trim name = "cap".toList then
      (numberBelow? (2 ^ 30) value).map fun n => { items with cap := BitVec.ofNat 30 n }
    else none
  | _ => none

/-- RX_OPEN's operands, each item optional and 0 by default (R84). R84 shows each item once, in the order cont, silence, cap;
that the items may stand in any order and that the last of a repeated item wins is the model's choice (assumption 22,
DESIGN CHOICE). -/
def openItems? (cs : List Char) : Option OpenItems :=
  let zero : OpenItems := { cont := false, silence := false, cap := 0#30 }
  if cs.isEmpty then some zero
  else (cutAt 44 cs).foldlM openItem? zero

/-- An operation without operands. -/
def bare? (args : List Char) (is : List Instr) : Option (List Instr) :=
  if args.isEmpty then some is else none

/-- What a mnemonic with its operands stands for (R84, R85). -/
def statement? (p : Params) (mnemonic args : List Char) : Option (List Instr) :=
  if mnemonic = "TX_OPEN".toList then (message? args).map fun m => [.txOpen m]
  else if mnemonic = "TX_NEXT_BIT".toList then bare? args [.txNextBit]
  else if mnemonic = "TX_CLOSE".toList then bare? args [.txClose]
  else if mnemonic = "TX_RDSR".toList then bare? args [.txRdsr]
  else if mnemonic = "RX_OPEN".toList then
    (openItems? args).map fun o => [.rxOpen o.cont o.silence o.cap]
  else if mnemonic = "RX_ACCEPT".toList then (signed? args).map fun v => [.rxAccept v]
  else if mnemonic = "RX_EVENT".toList then (signed? args).map fun v => [.rxEvent v]
  else if mnemonic = "RX_LINEBIT".toList then (lineBit? args).map fun b => [.rxLinebit b]
  else if mnemonic = "RX_RESULT".toList then bare? args [.rxResult]
  else if mnemonic = "RX_CLOSE".toList then bare? args [.rxClose]
  else if mnemonic = "RX_RDSR".toList then bare? args [.rxRdsr]
  else if mnemonic = "RX_CARRIER_LOST".toList then bare? args (expand p .rxCarrierLost)
  else if mnemonic = "RX_CARRIER_UP".toList then bare? args (expand p .rxCarrierUp)
  else if mnemonic = "TX_BITS".toList then
    (number? args).map fun k => expand p (.txBits k)
  else if mnemonic = "RX_LINEBITS".toList then
    ((cutAt 44 args).mapM lineBit?).map fun bits => expand p (.rxLinebits bits)
  else none

/-- One line: a mnemonic and its operands, or nothing but a comment. None where R84 and R85 give the line no meaning. -/
def line? (p : Params) (cs : List Char) : Option (List Instr) :=
  let body := trim (dropComment false cs)
  let mnemonic := body.takeWhile fun c => !isBlank c
  if body.isEmpty then some [] else statement? p mnemonic (trim (body.drop mnemonic.length))

/-- A text, one operation a line (R84). -/
def program? (p : Params) (text : String) : Option (List Instr) :=
  ((cutAt 10 text.toList).mapM (line? p)).map List.flatten

/-- The command stream of a list of operations. -/
def stream (is : List Instr) : List Item := is.flatMap encode

end Sys2Proof.Machine.Assembler
end

