-- ==== Sys2Proof/Safety.lean ====
section
/-! DEFINITION. What a legal state is (the ranges and relations of 10_state.md), and running a list of operations, in the
terms the claims use. -/

namespace Sys2Proof.Machine

/-- The transmit unit as the spec says it is (10_state.md R23 to R27, 20_memory.md R50, R60). -/
structure TxUnit.Legal (p : Params) (tx : TxUnit) : Prop where
  /-- the byte space has its canonical form. -/
  txs_wf : tx.txs.wf
  /-- only indices 0 to TX_MAX_LEN exist (R50). -/
  txs_range : ∀ c ∈ tx.txs, c.1 ≤ p.txMaxLen
  /-- BIT_PHASE holds only 0 to 9 (R24). -/
  phase_le : tx.bitPhase ≤ 9#4
  /-- outside a session every field has its reset value (R102, R39). -/
  idle : tx.active = false → tx.byteCount = 0 ∧ tx.byteCursor = 0 ∧ tx.bitPhase = 0#4
  /-- BYTE_COUNT is a length TX_OPEN accepts (R100). -/
  count_range : tx.active = true → 1 ≤ tx.byteCount ∧ tx.byteCount ≤ p.txMaxLen
  /-- under STRICT the cursor is at most BYTE_COUNT; at BYTE_COUNT the phase is 0 (R25). -/
  cursor_strict : p.boundary = .strict → tx.active = true →
    tx.byteCursor ≤ tx.byteCount ∧ (tx.byteCursor = tx.byteCount → tx.bitPhase = 0#4)
  /-- under REFERENCE the cursor is at most BYTE_COUNT + 1 (R25); there the phase is 0. -/
  cursor_reference : p.boundary = .reference → tx.active = true →
    tx.byteCursor ≤ tx.byteCount + 1 ∧ (tx.byteCursor = tx.byteCount + 1 → tx.bitPhase = 0#4)
  /-- every byte that will be framed has been written (R60). -/
  written : tx.active = true → ∀ k < tx.byteCount, (tx.txs.read k).isSome
  /-- under REFERENCE so has the byte past the end (R100). -/
  written_past : p.boundary = .reference → tx.active = true → (tx.txs.read tx.byteCount).isSome

/-- The receive unit as the spec says it is (10_state.md R28 to R34, 20_memory.md R50, R60). -/
structure RxUnit.Legal (rx : RxUnit) : Prop where
  /-- the byte space has its canonical form. -/
  rxd_wf : rx.rxd.wf
  /-- only indices below RX_MAX_CAPACITY exist (R50). -/
  rxd_range : ∀ c ∈ rx.rxd, c.1 < Config.rxMaxCapacity
  /-- outside a session every field has its reset value (R134, R39). -/
  idle : rx.active = false → rx = { RxUnit.reset with rxd := rx.rxd }
  /-- CAPACITY is 1 to RX_MAX_CAPACITY (R28). -/
  capacity_range : rx.active = true →
    1 ≤ rx.capacity.toNat ∧ rx.capacity.toNat ≤ Config.rxMaxCapacity
  /-- WRITE_CURSOR is at most CAPACITY (R33). -/
  cursor_le : rx.active = true → rx.writeCursor ≤ rx.capacity
  /-- every byte RX_RESULT would return has been written (R60). -/
  written : ∀ k < rx.writeCursor.toNat, (rx.rxd.read k).isSome
  /-- EOS is set exactly in STREAM_ENDED (R31). -/
  eos_iff : rx.eos = true ↔ rx.state = .streamEnded
  /-- OVF is set only with EOS (R32). -/
  ovf_eos : rx.ovf = true → rx.eos = true
  /-- CARRIER_LOST needs CONTINUE (R30, R160). -/
  lost_cont : rx.state = .carrierLost → rx.cont = true
  /-- in HUNT the deframer holds nothing (R34). -/
  hunt_clear : rx.rxdState = .hunt → rx.rxdCount = 0#4 ∧ rx.rxdShift = 0#8
  /-- in DATA it holds at most 8 bits, the bits not yet taken 0 (R34). -/
  data_range : rx.rxdState = .data →
    rx.rxdCount ≤ 8#4 ∧ ∀ i, rx.rxdCount.toNat ≤ i → rx.rxdShift.getLsbD i = false

/-- A legal state: legal parameters (R7), two legal units, and a command stream that keeps to R79. -/
structure State.Legal (s : State) : Prop where
  params : s.params.Ok
  tx : s.tx.Legal s.params
  rx : s.rx.Legal
  stream : streamOk 0 s.commands = true

/-- A safe run: after `k` steps the machine has neither faulted nor refused, and its state is legal. -/
def SafeFor (k : Nat) (s : State) : Prop :=
  ∃ t, Host.Core.run Sys2Proof.core k s = .next t ∧ State.Legal t

/-- Goes on with a function where an outcome is a next state. -/
def andThen (o : Host.Outcome State Fault Refusal)
    (f : State → Host.Outcome State Fault Refusal) : Host.Outcome State Fault Refusal :=
  match o with
  | .next s => f s
  | .fault r => .fault r
  | .refused r => .refused r

/-- Runs operations one after the other (10_state.md R21). -/
def execAll : List Instr → State → Host.Outcome State Fault Refusal
  | [], s => .next s
  | i :: is, s => andThen (exec i s) (execAll is)

/-- The line bit at position j of the frame of a byte, as the table of R70 gives it: start bit 0, data bits least
significant first, stop bit 1. -/
def frameBit (b : Byte) (j : Nat) : Bool :=
  if j = 0 then false else if j = 9 then true else b.getLsbD (j - 1)

/-- The line bits of a message, frame after frame (R70, R104). -/
def lineBits : List Byte → List Bool
  | [] => []
  | b :: bs => (List.range 10).map (frameBit b) ++ lineBits bs

/-- A response with error code OK, one line bit and no event: what a TX_NEXT_BIT in a session gives. -/
def bitResponse (b : Bool) : Response where
  err := .ok
  recorded := none
  values := [.bit b]
  events := []

/-- A response with error code OK, no value and no event. -/
def plainOk : Response where
  err := .ok
  recorded := none
  values := []
  events := []

/-- Whether an operation is one of TX's (R77, the unit column). -/
def isTxOp : Instr → Bool
  | .txOpen _ => true
  | .txNextBit => true
  | .txClose => true
  | .txRdsr => true
  | .rxOpen _ _ _ => false
  | .rxAccept _ => false
  | .rxEvent _ => false
  | .rxLinebit _ => false
  | .rxResult => false
  | .rxClose => false
  | .rxRdsr => false

/-- Whether an operation needs a session on its unit (30_encoding.md R81, the row NO_SESSION). -/
def needsSession : Instr → Bool
  | .txOpen _ => false
  | .txNextBit => true
  | .txClose => true
  | .txRdsr => false
  | .rxOpen _ _ _ => false
  | .rxAccept _ => true
  | .rxEvent _ => true
  | .rxLinebit _ => true
  | .rxResult => true
  | .rxClose => true
  | .rxRdsr => false

/-- Applies a function to the state an outcome goes on with. -/
def mapNext (f : State → State) :
    Host.Outcome State Fault Refusal → Host.Outcome State Fault Refusal
  | .next s => .next (f s)
  | .fault r => .fault r
  | .refused r => .refused r

/-- The state with another `RX.EMIT_SILENCE`. -/
def State.withSilence (b : Bool) (s : State) : State :=
  { s with rx := { s.rx with emitSilence := b } }

/-- The line bits that responses carry, in order: what a host that loops TX back to RX reads (60_exceptions.md R209). -/
def bitsOf : List Response → List Bool
  | [] => []
  | r :: rs =>
    match r.values with
    | [.bit b] => b :: bitsOf rs
    | _ => bitsOf rs

/-- `Framing()` as R27 writes it. -/
def FramingHolds (s : State) : Prop :=
  (s.params.boundary = .strict ∧ s.tx.byteCursor < s.tx.byteCount) ∨
    (s.params.boundary = .reference ∧ s.tx.byteCursor ≤ s.tx.byteCount)

/-- The state with one more response and nothing else changed: an operation that writes no state. -/
def State.plus (s : State) (r : Response) : State := { s with responses := s.responses ++ [r] }

end Sys2Proof.Machine
end

