-- ==== Sys2Proof/Certificates/Slice0/Obligations.lean ====
section
/-! DEFINITION. The statements for the provers. Each docstring names the rule of spec/ it formalises; a clause that rests on
a choice of the model names the assumption. -/

open Sys2Proof Sys2Proof.Machine

/-! ## Reset and legal states -/

/-- The value every field has after power-on reset (the table of R39). That no index of TXS or RXD is listed is the model's form
of R39's "unspecified (any value)" (assumption 10, DESIGN CHOICE). -/
def Obligations.ResetHasTheValuesOfTheSpec : Prop :=
  State.reset.tx.active = false ∧ State.reset.tx.byteCount = 0 ∧
  State.reset.tx.byteCursor = 0 ∧ State.reset.tx.bitPhase = 0#4 ∧
  (∀ k, State.reset.tx.txs.read k = none) ∧
  State.reset.rx.active = false ∧ State.reset.rx.capacity = 0#17 ∧
  State.reset.rx.writeCursor = 0#17 ∧ State.reset.rx.cont = false ∧
  State.reset.rx.emitSilence = false ∧ State.reset.rx.state = .listening ∧
  State.reset.rx.eos = false ∧ State.reset.rx.ovf = false ∧
  State.reset.rx.rxdState = .hunt ∧ State.reset.rx.rxdCount = 0#4 ∧
  State.reset.rx.rxdShift = 0#8 ∧ (∀ k, State.reset.rx.rxd.read k = none)

/-- Power-on reset, from any state, gives every field of both units its value of R39 (R230). The function `powerOnReset` is the
model's form of that event (assumption 20, DESIGN CHOICE), and two byte spaces that list nothing its form of "unspecified"
(assumption 10, DESIGN CHOICE). -/
def Obligations.PowerOnResetSetsEveryField : Prop :=
  ∀ s : State,
    ((powerOnReset s).tx.active = false ∧ (powerOnReset s).tx.byteCount = 0 ∧
      (powerOnReset s).tx.byteCursor = 0 ∧ (powerOnReset s).tx.bitPhase = 0#4 ∧
      ∀ k, (powerOnReset s).tx.txs.read k = none) ∧
    (powerOnReset s).rx =
      { active := false, capacity := 0#17, writeCursor := 0#17, cont := false,
        emitSilence := false, state := .listening, eos := false, ovf := false,
        rxdState := .hunt, rxdCount := 0#4, rxdShift := 0#8, rxd := [] } ∧
    ∀ k, (powerOnReset s).rx.rxd.read k = none

/-- The reset state is a legal one. -/
def Obligations.ResetIsLegal : Prop := State.reset.Legal

/-- A step from a legal state leads to a legal state: the ranges and relations of 10_state.md (R24, R25, R31 to R34), the
canonical form of both byte spaces, and that every byte a later operation returns has been written (R60). -/
def Obligations.StepKeepsStatesLegal : Prop :=
  ∀ s t : State, s.Legal → step s = .next t → t.Legal

/-- From a legal state the machine runs for any number of steps with no fault and no refusal (R59, R200). -/
def Obligations.LegalStatesRunSafelyForever : Prop :=
  ∀ (k : Nat) (s : State), s.Legal → SafeFor k s

/-- R6: W_TX is the smallest width with 2^W > TX_MAX_LEN + 1, both TX counters fit it in a legal state, and 17 is the
smallest width with 2^W > RX_MAX_CAPACITY. -/
def Obligations.CountersFitTheirWidths : Prop :=
  (∀ s : State, s.Legal →
    s.tx.byteCount < 2 ^ Config.wTx s.params ∧ s.tx.byteCursor < 2 ^ Config.wTx s.params) ∧
  (∀ p : Params, ∀ w : Nat, p.txMaxLen + 1 < 2 ^ w ↔ Config.wTx p ≤ w) ∧
  (∀ w : Nat, Config.rxMaxCapacity < 2 ^ w ↔ 17 ≤ w)

/-! ## Encoding and the step -/

/-- R79: decoding the encoding of a well-formed operation gives it back, with every operand at every value, and leaves the
rest of the stream: opcode and operand alone tell where the next command starts. -/
def Obligations.DecodeOfEncodeIsTheOperation : Prop :=
  ∀ (i : Instr) (rest : List Item), i.wf = true → decode (encode i ++ rest) = .instr i rest

/-- Each stream has one reading: what decodes to an operation is that operation's encoding followed by the rest. -/
def Obligations.EncodeOfDecodeIsTheStream : Prop :=
  ∀ (items rest : List Item) (i : Instr),
    decode items = .instr i rest → items = encode i ++ rest ∧ i.wf = true

/-- R77: the opcode of every operation, with the operand layouts of R76 and the words of R84. -/
def Obligations.CommandWordsHaveTheSpecsLayout : Prop :=
  (∀ m, encodeWord (.txOpen m) = 0x01#8 ++ BitVec.ofNat 32 m.length) ∧
  encodeWord .txNextBit = 0x0200000000#40 ∧
  encodeWord .txClose = 0x0300000000#40 ∧
  encodeWord .txRdsr = 0x0400000000#40 ∧
  (∀ c s k, encodeWord (.rxOpen c s k) = 0x11#8 ++ k ++ BitVec.ofBool s ++ BitVec.ofBool c) ∧
  (∀ v, encodeWord (.rxAccept v) = 0x12#8 ++ v) ∧
  (∀ v, encodeWord (.rxEvent v) = 0x13#8 ++ v) ∧
  (∀ b, encodeWord (.rxLinebit b) = 0x14#8 ++ 0#31 ++ BitVec.ofBool b) ∧
  encodeWord .rxResult = 0x1500000000#40 ∧
  encodeWord .rxClose = 0x1600000000#40 ∧
  encodeWord .rxRdsr = 0x1700000000#40

/-- Words written out from the spec's encodings decode to what they stand for (R76, R77, R84, 95_test_vectors.md). -/
def Obligations.SpecWordsDecodeRight : Prop :=
  decodeTableWord 40 0x0200000000 = some .txNextBit ∧
  decodeTableWord 40 0x1100000004 = some (.rxOpen false false 1#30) ∧
  decodeTableWord 40 0x110000000D = some (.rxOpen true false 3#30) ∧
  decodeTableWord 40 0x12FFFFFFFF = some (.rxAccept (-1)) ∧
  decodeTableWord 40 0x13FFFFFFFE = some (.rxEvent (-2)) ∧
  decodeTableWord 40 0x1400000001 = some (.rxLinebit true) ∧
  decodeTableWord 40 0x1400000002 = none ∧
  decode [.word 0x0100000002#40, .byte 0x48#8, .byte 0x49#8, .word 0x0200000000#40] =
    .instr (.txOpen [0x48#8, 0x49#8]) [.word 0x0200000000#40]

/-- R78: exactly the words of its cases (a) and (b) are illegal; an illegal word ends with ILLEGAL_OP(cmd), writes no
state and emits no event; an out-of-range length or capacity is legal to decode and INVALID_INPUT to its operation. -/
def Obligations.IllegalWordsAreThoseOfTheSpec : Prop :=
  (∀ (w : CommandWord) (rest : List Item),
    decode (.word w :: rest) = .illegal w rest ↔
      (w.toNat / 2 ^ 32 = 0x00 ∨ (0x05 ≤ w.toNat / 2 ^ 32 ∧ w.toNat / 2 ^ 32 ≤ 0x10) ∨
        0x18 ≤ w.toNat / 2 ^ 32) ∨
      (w.toNat / 2 ^ 32 ∈ [0x02, 0x03, 0x04, 0x15, 0x16, 0x17] ∧ w.toNat % 2 ^ 32 ≠ 0) ∨
      (w.toNat / 2 ^ 32 = 0x14 ∧ 2 ≤ w.toNat % 2 ^ 32)) ∧
  (∀ (s : State) (w : CommandWord) (rest : List Item),
    s.commands = .word w :: rest → decode (.word w :: rest) = .illegal w rest →
      step s = .next { s with
        commands := rest, responses := s.responses ++ [⟨.illegalOp, some w, [], []⟩] }) ∧
  (∀ (s : State) (m : List Byte), s.tx.active = false → m.length < 2 ^ 32 →
    (m.length = 0 ∨ s.params.txMaxLen < m.length) →
      decode (encode (.txOpen m)) = .instr (.txOpen m) [] ∧
      exec (.txOpen m) s =
        .next (s.plus ⟨.invalidInput, some (BitVec.ofNat 40 m.length), [], []⟩)) ∧
  (∀ (s : State) (c e : Bool) (k : BitVec 30), s.rx.active = false → 65536 < k.toNat →
      decode (encode (.rxOpen c e k)) = .instr (.rxOpen c e k) [] ∧
      exec (.rxOpen c e k) s = .next (s.plus ⟨.invalidInput, some (k.setWidth 40), [], []⟩))

/-- A step takes the next command off the stream and runs it: when the stream begins with the encoding of a well-formed
operation, and whenever the decoder reads one. -/
def Obligations.StepRunsTheDecodedOperation : Prop :=
  (∀ (s : State) (i : Instr) (rest : List Item),
    i.wf = true → s.commands = encode i ++ rest → step s = exec i { s with commands := rest }) ∧
  (∀ (s : State) (i : Instr) (rest : List Item),
    decode s.commands = .instr i rest → step s = exec i { s with commands := rest })

/-- The core waits, with no change at all, while the host has issued no command (R231) or not yet the whole data phase of a
TX_OPEN (assumption 2, DEDUCED). -/
def Obligations.CoreWaitsForAWholeCommand : Prop :=
  (∀ s : State, s.commands = [] → step s = .next s) ∧
  (∀ (s : State) (n : Word) (bs : List Byte), bs.length < n.toNat →
    s.commands = .word (0x01#8 ++ n) :: bs.map .byte → step s = .next s)

/-- A stream whose items break R79 is refused by name, and nothing else is (assumption 3, DESIGN CHOICE): a data byte where
a command word must stand, or a command word inside a data phase. -/
def Obligations.OnlyABrokenStreamIsRefused : Prop :=
  (∀ (s : State) (b : Byte) (rest : List Item),
    s.commands = .byte b :: rest → step s = .refused .strayDataByte) ∧
  (∀ (s : State) (n : Word) (bs : List Byte) (w : CommandWord) (rest : List Item),
    bs.length < n.toNat → s.commands = .word (0x01#8 ++ n) :: (bs.map .byte ++ .word w :: rest) →
      step s = .refused .wordInDataPhase) ∧
  (∀ s : State, streamOk 0 s.commands = true → ∀ r, step s ≠ .refused r)

/-- What the host reads from a word of spec/opcode_table.json is what the next step runs, on the state as it stands (the
model's own interface: assumptions 17 and 19, DESIGN CHOICE). -/
def Obligations.FetchWordIsRunNext : Prop :=
  ∀ (s : State) (nbits w : Nat) (i : Instr),
    decodeTableWord nbits w = some i → step (s.withFetchWord nbits w) = exec i s

/-- R206: the order of the checks. ILLEGAL_OP comes first whatever the state; BUSY before INVALID_INPUT; NO_SESSION first for
the other session operations; then the sign of the symbol, before the end of stream; in the intake STREAM_ENDED before
BUFFER_OVERFLOW, from either path; a status symbol is handled and logged even when EOS = 1. -/
def Obligations.ChecksRunInTheSpecsOrder : Prop :=
  (∀ (s : State) (w : CommandWord) (rest : List Item),
    s.commands = .word w :: rest → decode (.word w :: rest) = .illegal w rest →
      ∃ t, step s = .next t ∧ t.responses = s.responses ++ [⟨.illegalOp, some w, [], []⟩]) ∧
  (∀ (s : State) (m : List Byte), s.tx.active = true →
    ∃ t, exec (.txOpen m) s = .next t ∧
      t.responses = s.responses ++ [⟨.busy, some (BitVec.ofNat 40 m.length), [], []⟩]) ∧
  (∀ (s : State) (c e : Bool) (cap : BitVec 30), s.rx.active = true →
    ∃ t info, exec (.rxOpen c e cap) s = .next t ∧
      t.responses = s.responses ++ [⟨.busy, some info, [], []⟩]) ∧
  (∀ (s : State) (i : Instr), needsSession i = true →
    (isTxOp i = true → s.tx.active = false) → (isTxOp i = false → s.rx.active = false) →
      ∃ t r, exec i s = .next t ∧ t.responses = s.responses ++ [r] ∧ r.err = .noSession) ∧
  (∀ (s : State) (v : Word), s.rx.active = true → v.toInt < 0 →
    ∃ t, exec (.rxAccept v) s = .next t ∧
      t.responses = s.responses ++ [⟨.ok, none, [], [.status v]⟩]) ∧
  (∀ (s : State) (v : Word), s.rx.active = true → 0 ≤ v.toInt → s.rx.eos = true →
    s.rx.capacity ≤ s.rx.writeCursor →
      exec (.rxAccept v) s =
        .next (s.plus ⟨.streamEnded, some ((v.extractLsb' 0 8).setWidth 40), [], []⟩)) ∧
  (∀ s : State, s.rx.active = true → s.rx.rxdState = .data → 8#4 ≤ s.rx.rxdCount →
    s.rx.eos = true → s.rx.capacity ≤ s.rx.writeCursor →
      ∃ t, exec (.rxLinebit true) s = .next t ∧
        t.responses = s.responses ++
          [⟨.streamEnded, some (s.rx.rxdShift.setWidth 40), [], []⟩])

/-- R85: the expansion of every pseudo-operation, and the command words of two of them. -/
def Obligations.PseudoOperationsExpand : Prop :=
  (∀ p, Assembler.expand p .rxCarrierLost = [.rxEvent (-1)]) ∧
  (∀ p, Assembler.expand p .rxCarrierUp = [.rxEvent p.sigCarrierUp]) ∧
  (∀ p k, (Assembler.expand p (.txBits k)).length = k ∧
    ∀ i ∈ Assembler.expand p (.txBits k), i = .txNextBit) ∧
  (∀ (p : Params) (bs : List Bool) (j : Nat), (Assembler.expand p (.rxLinebits bs))[j]? = (bs[j]?).map Instr.rxLinebit)

/-! ## Every operation -/

/-- R80: every operation that goes on returns exactly one response, after those before it, and leaves the parameters and
the command stream as they are. -/
def Obligations.EveryOperationGivesOneResponse : Prop :=
  ∀ (i : Instr) (s t : State), exec i s = .next t →
    (∃ r, t.responses = s.responses ++ [r]) ∧ t.params = s.params ∧ t.commands = s.commands

/-- R20: the units share no state. An operation of one unit leaves the other unit as it was, and does the same whatever the
other unit holds. -/
def Obligations.UnitsShareNoState : Prop :=
  (∀ (i : Instr) (s : State) (rx : RxUnit), isTxOp i = true →
    (∀ t, exec i s = .next t → t.rx = s.rx) ∧
    exec i { s with rx := rx } = mapNext (fun t => { t with rx := rx }) (exec i s)) ∧
  (∀ (i : Instr) (s : State) (tx : TxUnit), isTxOp i = false →
    (∀ t, exec i s = .next t → t.tx = s.tx) ∧
    exec i { s with tx := tx } = mapNext (fun t => { t with tx := tx }) (exec i s))

/-- R201, the row NO_SESSION: the operation records its operand and changes no state; TX_NEXT_BIT still gives the value 1
(the operand of a format N operation is 0: assumption 5, DEDUCED). -/
def Obligations.NoSessionChangesNothing : Prop :=
  (∀ s : State, s.tx.active = false →
    exec .txNextBit s = .next (s.plus ⟨.noSession, some 0#40, [.bit true], []⟩) ∧
    exec .txClose s = .next (s.plus ⟨.noSession, some 0#40, [], []⟩)) ∧
  (∀ (s : State) (v : Word) (b : Bool), s.rx.active = false →
    exec (.rxAccept v) s = .next (s.plus ⟨.noSession, some (v.setWidth 40), [], []⟩) ∧
    exec (.rxEvent v) s = .next (s.plus ⟨.noSession, some (v.setWidth 40), [], []⟩) ∧
    exec (.rxLinebit b) s =
      .next (s.plus ⟨.noSession, some (0#39 ++ BitVec.ofBool b), [], []⟩) ∧
    exec .rxResult s = .next (s.plus ⟨.noSession, some 0#40, [], []⟩) ∧
    exec .rxClose s = .next (s.plus ⟨.noSession, some 0#40, [], []⟩))

/-- R202 and R201: an operation that ends with an error code other than BUFFER_OVERFLOW leaves both units as they were; the
one exception is RX_LINEBIT's STREAM_ENDED, where R181 has already put the deframer back in HUNT (assumption 13, DEDUCED).
BUFFER_OVERFLOW leaves TX, RXD, the cursor, the capacity and the two options as they were. -/
def Obligations.ErrorsLeaveTheUnitsAlone : Prop :=
  ∀ (i : Instr) (s t : State) (r : Response),
    exec i s = .next t → t.responses = s.responses ++ [r] → r.err ≠ .ok →
      t.tx = s.tx ∧ r.recorded.isSome = true ∧ r.events = [] ∧
      (r.err ≠ .bufferOverflow →
        t.rx = s.rx ∨ ((∃ b, i = .rxLinebit b) ∧ r.err = .streamEnded ∧ t.rx = s.rx.toHunt)) ∧
      (r.err = .bufferOverflow →
        t.rx.ovf = true ∧ t.rx.eos = true ∧ t.rx.state = .streamEnded ∧
        t.rx.rxd = s.rx.rxd ∧ t.rx.writeCursor = s.rx.writeCursor ∧
        t.rx.capacity = s.rx.capacity ∧ t.rx.cont = s.rx.cont ∧
        t.rx.emitSilence = s.rx.emitSilence ∧ t.rx.active = s.rx.active)

/-- R81: the numeric value of every error code; 7 to 255 are never returned. -/
def Obligations.ErrorCodesHaveTheSpecsValues : Prop :=
  ErrorCode.ok.code = 0#8 ∧ ErrorCode.invalidInput.code = 1#8 ∧
  ErrorCode.bufferOverflow.code = 2#8 ∧ ErrorCode.streamEnded.code = 3#8 ∧
  ErrorCode.noSession.code = 4#8 ∧ ErrorCode.busy.code = 5#8 ∧
  ErrorCode.illegalOp.code = 6#8 ∧
  ∀ (s t : State) (r : Response), step s = .next t → t.responses = s.responses ++ [r] →
    r.err.code.toNat < 7

/-! ## The transmit framer -/

/-- R100: TX_OPEN. BUSY and INVALID_INPUT change nothing; otherwise a session begins with the message in TXS, under either
boundary, the REFERENCE variant with one more byte after it; every other index of TXS, RX and the rest stay as they were. -/
def Obligations.TxOpenFollowsItsRule : Prop :=
  ∀ (s : State) (m : List Byte),
    (s.tx.active = true →
      exec (.txOpen m) s = .next (s.plus ⟨.busy, some (BitVec.ofNat 40 m.length), [], []⟩)) ∧
    (s.tx.active = false → (m.length = 0 ∨ s.params.txMaxLen < m.length) →
      exec (.txOpen m) s =
        .next (s.plus ⟨.invalidInput, some (BitVec.ofNat 40 m.length), [], []⟩)) ∧
    (s.tx.active = false → 1 ≤ m.length → m.length ≤ s.params.txMaxLen →
      ∃ t, exec (.txOpen m) s = .next t ∧
        t.tx.active = true ∧ t.tx.byteCount = m.length ∧ t.tx.byteCursor = 0 ∧
        t.tx.bitPhase = 0#4 ∧
        (∀ (k : Nat) (b : Byte), m[k]? = some b → t.tx.txs.read k = some b) ∧
        (s.params.boundary = .strict → ∀ k, m.length ≤ k → t.tx.txs.read k = s.tx.txs.read k) ∧
        (s.params.boundary = .reference → (∃ d, t.tx.txs.read m.length = some d) ∧
          ∀ k, m.length < k → t.tx.txs.read k = s.tx.txs.read k) ∧
        t.rx = s.rx ∧ t.params = s.params ∧ t.commands = s.commands ∧
        t.responses = s.responses ++ [plainOk])

/-- The byte that TX_OPEN draws under REFERENCE is the free value `Config.draw8` of a counter that moves on by one (the
model's own form of R11's `draw8()`: assumption 9, DESIGN CHOICE); no other operation draws, and none does under STRICT. -/
def Obligations.DrawnBytesAreFreeValues : Prop :=
  (∀ (s t : State) (m : List Byte), s.params.boundary = .reference → s.tx.active = false →
    1 ≤ m.length → m.length ≤ s.params.txMaxLen → exec (.txOpen m) s = .next t →
      t.tx.txs.read m.length = some (Config.draw8 s.tx.draws) ∧
      t.tx.draws = s.tx.draws + 1) ∧
  (∀ (i : Instr) (s t : State), exec i s = .next t →
    t.tx.draws = s.tx.draws ∨
      (s.params.boundary = .reference ∧ s.tx.active = false ∧ (∃ m, i = .txOpen m) ∧
        t.tx.draws = s.tx.draws + 1))

/-- TX_NEXT_BIT (R101). With no session it gives 1 and NO_SESSION, where the recorded 0 is the model's reading of R201 and R76
(assumption 5, DEDUCED); exhausted it gives the idle 1; otherwise it gives the bit of R70 at the current frame position p
and moves on, to phase 0 of the next byte after position 9. Only the data positions read TXS. Nothing else changes. -/
def Obligations.TxNextBitFollowsItsRule : Prop :=
  ∀ s : State,
    (s.tx.active = false →
      exec .txNextBit s = .next (s.plus ⟨.noSession, some 0#40, [.bit true], []⟩)) ∧
    (s.tx.active = true → ¬ FramingHolds s →
      exec .txNextBit s = .next (s.plus (bitResponse true))) ∧
    (∀ (p : Nat) (b : Byte), s.tx.active = true → FramingHolds s →
      s.tx.bitPhase.toNat = p → p ≤ 9 →
      (1 ≤ p → p ≤ 8 →
        s.tx.txs.read s.tx.byteCursor = some b ∧ s.tx.byteCursor ≤ s.params.txMaxLen) →
      exec .txNextBit s = .next { s with
        tx := { s.tx with
          bitPhase := BitVec.ofNat 4 ((p + 1) % 10)
          byteCursor := s.tx.byteCursor + (p + 1) / 10 }
        responses := s.responses ++ [bitResponse (frameBit b p)] })

/-- What TX_NEXT_BIT does in states no run reaches: at a data position, an index of TXS that exists and was never written
gives a free value (assumption 10, DESIGN CHOICE; R60), and an index that does not exist (R50) faults (assumption 11). -/
def Obligations.TxNextBitOutsideTheWrittenBytes : Prop :=
  ∀ (s : State) (p : Nat), s.tx.active = true → FramingHolds s →
    s.tx.bitPhase.toNat = p → 1 ≤ p → p ≤ 8 →
    (s.tx.txs.read s.tx.byteCursor = none → s.tx.byteCursor ≤ s.params.txMaxLen →
      exec .txNextBit s = .next { s with
        tx := { s.tx with bitPhase := BitVec.ofNat 4 (p + 1) }
        responses := s.responses ++
          [bitResponse ((Config.unwrittenTxs s.tx.byteCursor).getLsbD (p - 1))] }) ∧
    (s.params.txMaxLen < s.tx.byteCursor →
      exec .txNextBit s = .fault (.txsIndexAbsent s.tx.byteCursor))

/-- TX_CLOSE (R102). NO_SESSION changes nothing, and its recorded 0 is the model's reading of R201 and R76 (assumption 5,
DEDUCED); otherwise every TX field has its reset value and nothing else changes. The empty list of TXS is the model's form of
R102's "unspecified" (assumption 10, DESIGN CHOICE). -/
def Obligations.TxCloseFollowsItsRule : Prop :=
  ∀ s : State,
    (s.tx.active = false →
      exec .txClose s = .next (s.plus ⟨.noSession, some 0#40, [], []⟩)) ∧
    (s.tx.active = true →
      exec .txClose s = .next { s with
        tx := { active := false, byteCount := 0, byteCursor := 0, bitPhase := 0#4, txs := [],
                draws := s.tx.draws }
        responses := s.responses ++ [plainOk] })

/-- R27: TX.DONE is ACTIVE and not Framing, under either boundary; outside a session it is 0. -/
def Obligations.DoneIsActiveAndNotFraming : Prop :=
  ∀ s : State,
    (s.tx.done s.params.boundary = true ↔ s.tx.active = true ∧ ¬ FramingHolds s) ∧
    (s.tx.active = false → s.tx.done s.params.boundary = false)

/-- R36: the fields of the three TX status words, which TX_RDSR returns in order; no operation state changes. -/
def Obligations.TxRdsrShowsTheStatusWords : Prop :=
  ∀ s : State, ∃ w0 w1 w2 : Word,
    exec .txRdsr s = .next (s.plus ⟨.ok, none, [.word w0, .word w1, .word w2], []⟩) ∧
    w0.getLsbD 0 = s.tx.active ∧
    (w0.getLsbD 1 = true ↔ s.tx.active = true ∧ ¬ FramingHolds s) ∧
    w0.getLsbD 2 = false ∧ w0.getLsbD 3 = false ∧
    w0.extractLsb' 4 4 = s.tx.bitPhase ∧
    w0.extractLsb' 8 24 = 0#24 ∧
    (s.tx.byteCursor < 2 ^ 32 → w1.toNat = s.tx.byteCursor) ∧
    (s.tx.byteCount < 2 ^ 32 → w2.toNat = s.tx.byteCount)

/-- R103 and R135, with no session in a legal state: both status reads return 0, 0, 0; in any state two of them in a row
return equal words. -/
def Obligations.StatusReadsAreLegalWithoutASession : Prop :=
  (∀ s : State, s.tx.Legal s.params → s.tx.active = false →
    exec .txRdsr s = .next (s.plus ⟨.ok, none, [.word 0, .word 0, .word 0], []⟩)) ∧
  (∀ s : State, s.rx.Legal → s.rx.active = false →
    exec .rxRdsr s = .next (s.plus ⟨.ok, none, [.word 0, .word 0, .word 0], []⟩)) ∧
  (∀ s : State, ∃ r, execAll [.txRdsr, .txRdsr] s = .next ((s.plus r).plus r)) ∧
  (∀ s : State, ∃ r, execAll [.rxRdsr, .rxRdsr] s = .next ((s.plus r).plus r))

/-- R104: the frame law. After a TX_OPEN with message m under STRICT, call i of TX_NEXT_BIT returns bit i mod 10 of the frame
of m[i / 10] for i < 10n and 1 from call 10n on; exactly the first 10n calls move the position (10 · BYTE_CURSOR +
BIT_PHASE), the others change nothing; DONE holds from the end of call 10n − 1 on, and every operation but TX_CLOSE keeps
it. -/
def Obligations.FrameLaw : Prop :=
  (∀ (s : State) (m : List Byte), s.params.boundary = .strict → s.tx.active = false →
    1 ≤ m.length → m.length ≤ s.params.txMaxLen →
    ∀ c : Nat, ∃ t, execAll (.txOpen m :: List.replicate c .txNextBit) s = .next t ∧
      t.responses = s.responses ++ plainOk :: (List.range c).map (fun i =>
        bitResponse (if i < 10 * m.length then frameBit (m.getD (i / 10) 0#8) (i % 10) else true)) ∧
      10 * t.tx.byteCursor + t.tx.bitPhase.toNat = min c (10 * m.length) ∧
      t.tx.bitPhase.toNat ≤ 9 ∧
      (t.tx.done s.params.boundary = true ↔ 10 * m.length ≤ c) ∧
      (10 * m.length ≤ c →
        exec .txNextBit t = .next (t.plus (bitResponse true))) ∧
      t.rx = s.rx ∧ t.params = s.params ∧ t.commands = s.commands) ∧
  (∀ (i : Instr) (s t : State), s.tx.done s.params.boundary = true → i ≠ .txClose →
    exec i s = .next t → t.tx.done t.params.boundary = true)

/-- R105: STRICT sends exactly n frames and this hardware is STRICT; the REFERENCE variant sends n + 1 frames, frame n
carrying the byte TXS[n] that TX_OPEN drew, and its cursor reaches n + 1. -/
def Obligations.BoundaryDecidesTheNumberOfFrames : Prop :=
  State.reset.params.boundary = .strict ∧
  (∀ (s t : State), step s = .next t → t.params = s.params) ∧
  ∀ (s : State) (m : List Byte), s.tx.active = false →
    1 ≤ m.length → m.length ≤ s.params.txMaxLen →
    ∃ (u : State) (sent : List Byte), exec (.txOpen m) s = .next u ∧
      (s.params.boundary = .strict → sent = m) ∧
      (s.params.boundary = .reference →
        ∃ d, u.tx.txs.read m.length = some d ∧ sent = m ++ [d]) ∧
      ∀ c : Nat, ∃ t, execAll (List.replicate c .txNextBit) u = .next t ∧
        bitsOf (t.responses.drop u.responses.length) =
          (lineBits sent ++ List.replicate (c - 10 * sent.length) true).take c ∧
        10 * t.tx.byteCursor + t.tx.bitPhase.toNat = min c (10 * sent.length) ∧
        t.tx.bitPhase.toNat ≤ 9

/-- R26: during a session neither BYTE_COUNT nor any byte of TXS changes, whatever operation is issued but TX_CLOSE (which
ends the session); with or without one, no operation but TX_OPEN and TX_CLOSE changes them. -/
def Obligations.MessageIsFixedDuringASession : Prop :=
  (∀ (i : Instr) (s t : State), s.tx.active = true → i ≠ .txClose → exec i s = .next t →
    t.tx.active = true ∧ t.tx.byteCount = s.tx.byteCount ∧
    ∀ k, t.tx.txs.read k = s.tx.txs.read k) ∧
  (∀ (i : Instr) (s t : State), (∀ m, i ≠ .txOpen m) → i ≠ .txClose → exec i s = .next t →
    t.tx.byteCount = s.tx.byteCount ∧ ∀ k, t.tx.txs.read k = s.tx.txs.read k)

/-! ## The receive session and intake -/

/-- R130: RX_OPEN. BUSY and INVALID_INPUT change nothing; otherwise every RX field has the value of the rule, CAP 0
selecting 65536, RXD is not cleared, and nothing else changes. -/
def Obligations.RxOpenFollowsItsRule : Prop :=
  ∀ (s : State) (c e : Bool) (cap : BitVec 30),
    (s.rx.active = true →
      exec (.rxOpen c e cap) s = .next (s.plus
        ⟨.busy, some (0#8 ++ cap ++ BitVec.ofBool e ++ BitVec.ofBool c), [], []⟩)) ∧
    (s.rx.active = false → 65536 < cap.toNat →
      exec (.rxOpen c e cap) s =
        .next (s.plus ⟨.invalidInput, some (cap.setWidth 40), [], []⟩)) ∧
    (s.rx.active = false → cap.toNat ≤ 65536 →
      exec (.rxOpen c e cap) s = .next { s with
        rx := { active := true
                capacity := if cap = 0#30 then 65536#17 else cap.setWidth 17
                writeCursor := 0#17, cont := c, emitSilence := e, state := .listening
                eos := false, ovf := false, rxdState := .hunt, rxdCount := 0#4
                rxdShift := 0#8, rxd := s.rx.rxd }
        responses := s.responses ++ [plainOk] })

/-- R131 and R132: RX_ACCEPT. NO_SESSION changes nothing; a negative symbol does exactly what RX_EVENT does with that code;
any other goes to the intake. After the end of stream the byte is discarded with STREAM_ENDED; with no free slot
BUFFER_OVERFLOW sets OVF, EOS and STREAM_ENDED and writes no byte; otherwise the symbol's low byte goes to
RXD[WRITE_CURSOR], the cursor moves on by one, and every other index and field stays as it was. -/
def Obligations.RxAcceptFollowsItsRule : Prop :=
  ∀ (s : State) (v : Word),
    (s.rx.active = false →
      exec (.rxAccept v) s = .next (s.plus ⟨.noSession, some (v.setWidth 40), [], []⟩)) ∧
    (v.toInt < 0 → exec (.rxAccept v) s = exec (.rxEvent v) s) ∧
    (s.rx.active = true → 0 ≤ v.toInt → s.rx.eos = true →
      exec (.rxAccept v) s =
        .next (s.plus ⟨.streamEnded, some ((v.extractLsb' 0 8).setWidth 40), [], []⟩)) ∧
    (s.rx.active = true → 0 ≤ v.toInt → s.rx.eos = false → s.rx.capacity ≤ s.rx.writeCursor →
      exec (.rxAccept v) s = .next { s with
        rx := { s.rx with ovf := true, eos := true, state := .streamEnded }
        responses := s.responses ++
          [⟨.bufferOverflow, some ((v.extractLsb' 0 8).setWidth 40), [], []⟩] }) ∧
    (s.rx.active = true → 0 ≤ v.toInt → s.rx.eos = false → s.rx.writeCursor < s.rx.capacity →
      s.rx.writeCursor.toNat < 65536 →
      ∃ rxd : Memory,
        exec (.rxAccept v) s = .next { s with
          rx := { s.rx with writeCursor := s.rx.writeCursor + 1#17, rxd := rxd }
          responses := s.responses ++ [plainOk] } ∧
        rxd.read s.rx.writeCursor.toNat = some (v.extractLsb' 0 8) ∧
        ∀ k, k ≠ s.rx.writeCursor.toNat → rxd.read k = s.rx.rxd.read k)

/-- What the intake and RX_RESULT do in states no run reaches: a write or a read of RXD at an index that does not exist (R50)
faults (assumption 11, DESIGN CHOICE), and RX_RESULT gives a free value for an index that exists and was never written
(assumption 10, DESIGN CHOICE; R60). -/
def Obligations.RxdOutsideTheWrittenBytes : Prop :=
  (∀ (s : State) (v : Word), s.rx.active = true → 0 ≤ v.toInt → s.rx.eos = false →
    s.rx.writeCursor < s.rx.capacity → 65536 ≤ s.rx.writeCursor.toNat →
      exec (.rxAccept v) s = .fault (.rxdIndexAbsent s.rx.writeCursor.toNat)) ∧
  (∀ s : State, s.rx.active = true → s.rx.rxdState = .data → 8#4 ≤ s.rx.rxdCount →
    s.rx.eos = false → s.rx.writeCursor < s.rx.capacity → 65536 ≤ s.rx.writeCursor.toNat →
      exec (.rxLinebit true) s = .fault (.rxdIndexAbsent s.rx.writeCursor.toNat)) ∧
  (∀ s : State, s.rx.active = true → 65536 < s.rx.writeCursor.toNat →
    exec .rxResult s = .fault (.rxdIndexAbsent 65536)) ∧
  (∀ (s : State) (k : Nat), s.rx.active = true → s.rx.writeCursor.toNat ≤ 65536 →
    k < s.rx.writeCursor.toNat → s.rx.rxd.read k = none →
      ∃ (w : Word) (bytes : List Byte),
        exec .rxResult s =
          .next (s.plus ⟨.ok, none, .word w :: bytes.map .byte, []⟩) ∧
        bytes[k]? = some (Config.unwrittenRxd k))

/-- R137: a session of capacity n (CAP, or 65536 for CAP 0) accepts exactly n data symbols, each with OK, and the next one
raises BUFFER_OVERFLOW. -/
def Obligations.CapacityCountsDataBytes : Prop :=
  ∀ (s : State) (c e : Bool) (cap : BitVec 30) (n : Nat) (vs : List Word) (v : Word),
    s.rx.active = false →
    ((cap = 0#30 ∧ n = 65536) ∨ (1 ≤ n ∧ n ≤ 65536 ∧ n = cap.toNat)) → vs.length = n →
    (∀ x ∈ vs, 0 ≤ x.toInt) → 0 ≤ v.toInt →
    ∃ t, execAll (.rxOpen c e cap :: vs.map .rxAccept) s = .next t ∧
      t.responses = s.responses ++ List.replicate (n + 1) plainOk ∧
      t.rx.capacity.toNat = n ∧ t.rx.writeCursor.toNat = n ∧ t.rx.eos = false ∧
      (∀ (k : Nat) (x : Word), vs[k]? = some x → t.rx.rxd.read k = some (x.extractLsb' 0 8)) ∧
      exec (.rxAccept v) t = .next { t with
        rx := { t.rx with ovf := true, eos := true, state := .streamEnded }
        responses := t.responses ++
          [⟨.bufferOverflow, some ((v.extractLsb' 0 8).setWidth 40), [], []⟩] }

/-- RX_RESULT (R133). NO_SESSION changes nothing, and its recorded 0 is the model's reading of R201 and R76 (assumption 5,
DEDUCED); otherwise, at any point of a session, it returns the count and exactly the bytes RXD[0 .. WRITE_CURSOR − 1], and no
state changes. -/
def Obligations.RxResultFollowsItsRule : Prop :=
  ∀ s : State,
    (s.rx.active = false →
      exec .rxResult s = .next (s.plus ⟨.noSession, some 0#40, [], []⟩)) ∧
    (s.rx.active = true → s.rx.writeCursor.toNat ≤ 65536 →
      ∃ (w : Word) (bytes : List Byte),
        exec .rxResult s =
          .next (s.plus ⟨.ok, none, .word w :: bytes.map .byte, []⟩) ∧
        w.toNat = s.rx.writeCursor.toNat ∧ bytes.length = s.rx.writeCursor.toNat ∧
        ∀ k b, k < s.rx.writeCursor.toNat → s.rx.rxd.read k = some b → bytes[k]? = some b)

/-- R57: RX_RESULT is idempotent (two in a row return the same response), and a repeated RX_ACCEPT is not: where it stores a
byte it also moves the cursor. -/
def Obligations.RxResultIsIdempotentAndAcceptIsNot : Prop :=
  (∀ s : State, s.Legal → ∃ r, execAll [.rxResult, .rxResult] s = .next ((s.plus r).plus r)) ∧
  (∀ (s t : State) (v : Word), s.rx.active = true → 0 ≤ v.toInt → s.rx.eos = false →
    exec (.rxAccept v) s = .next t → t.responses = s.responses ++ [plainOk] →
      t.rx.writeCursor.toNat = s.rx.writeCursor.toNat + 1)

/-- RX_CLOSE (R134). NO_SESSION changes nothing, and its recorded 0 is the model's reading of R201 and R76 (assumption 5,
DEDUCED); otherwise every RX field has its reset value and nothing else changes. The empty list of RXD is the model's form of
R134's "unspecified" (assumption 10, DESIGN CHOICE). -/
def Obligations.RxCloseFollowsItsRule : Prop :=
  ∀ s : State,
    (s.rx.active = false →
      exec .rxClose s = .next (s.plus ⟨.noSession, some 0#40, [], []⟩)) ∧
    (s.rx.active = true →
      exec .rxClose s = .next { s with
        rx := { active := false, capacity := 0#17, writeCursor := 0#17, cont := false,
                emitSilence := false, state := .listening, eos := false, ovf := false,
                rxdState := .hunt, rxdCount := 0#4, rxdShift := 0#8, rxd := [] }
        responses := s.responses ++ [plainOk] })

/-- R37: the fields of the three RX status words, which RX_RDSR returns in order with or without a session; no state
changes. -/
def Obligations.RxRdsrShowsTheStatusWords : Prop :=
  ∀ s : State, ∃ w0 w1 w2 : Word,
    exec .rxRdsr s = .next (s.plus ⟨.ok, none, [.word w0, .word w1, .word w2], []⟩) ∧
    w0.getLsbD 0 = s.rx.active ∧ w0.getLsbD 1 = s.rx.eos ∧ w0.getLsbD 2 = s.rx.ovf ∧
    w0.getLsbD 3 = false ∧
    (w0.extractLsb' 4 2).toNat =
      (match s.rx.state with
        | .listening => 0
        | .carrierPresent => 1
        | .carrierLost => 2
        | .streamEnded => 3) ∧
    w0.extractLsb' 6 2 = 0#2 ∧
    w0.getLsbD 8 = s.rx.cont ∧ w0.getLsbD 9 = s.rx.emitSilence ∧
    w0.extractLsb' 10 2 = 0#2 ∧
    (w0.getLsbD 12 = true ↔ s.rx.rxdState = .data) ∧
    w0.extractLsb' 13 3 = 0#3 ∧
    w0.extractLsb' 16 4 = s.rx.rxdCount ∧
    w0.extractLsb' 20 12 = 0#12 ∧
    w1.toNat = s.rx.writeCursor.toNat ∧ w2.toNat = s.rx.capacity.toNat

/-- R136 and the port of R38: RX_OPEN stores EMIT_SILENCE, RXSR0[9] shows it, the port is ACTIVE and EMIT_SILENCE, and it
has no other effect: with either value of it every operation but RX_RDSR ends the same way, with the same responses and
every other field the same, and RX_RDSR's words differ in that bit alone. -/
def Obligations.EmitSilenceOnlyDrivesItsPort : Prop :=
  (∀ s : State, emitSilencePort s = true ↔ s.rx.active = true ∧ s.rx.emitSilence = true) ∧
  (∀ (i : Instr) (s : State) (b : Bool), i ≠ .rxRdsr →
    ∃ b', exec i (s.withSilence b) = mapNext (State.withSilence b') (exec i s)) ∧
  (∀ (s : State) (b : Bool), ∃ w0 w0' w1 w2 : Word,
    exec .rxRdsr s = .next (s.plus ⟨.ok, none, [.word w0, .word w1, .word w2], []⟩) ∧
    exec .rxRdsr (s.withSilence b) =
      .next ((s.withSilence b).plus ⟨.ok, none, [.word w0', .word w1, .word w2], []⟩) ∧
    w0.getLsbD 9 = s.rx.emitSilence ∧ w0'.getLsbD 9 = b ∧
    ∀ j, j ≠ 9 → w0'.getLsbD j = w0.getLsbD j) ∧
  (∀ (s t : State) (c e : Bool) (cap : BitVec 30), s.rx.active = false → cap.toNat ≤ 65536 →
    exec (.rxOpen c e cap) s = .next t → t.rx.emitSilence = e)

/-- R59 and R52: in a session no operation but RX_CLOSE changes a byte already delivered. Either RXD and the cursor stay, or
one byte is written at the cursor, below CAPACITY, and the cursor moves on by one. -/
def Obligations.DeliveredBytesNeverChange : Prop :=
  ∀ (i : Instr) (s t : State), s.rx.active = true → i ≠ .rxClose → exec i s = .next t →
    (t.rx.writeCursor = s.rx.writeCursor ∧ ∀ k, t.rx.rxd.read k = s.rx.rxd.read k) ∨
    (s.rx.writeCursor < s.rx.capacity ∧
      t.rx.writeCursor.toNat = s.rx.writeCursor.toNat + 1 ∧
      (∃ b, t.rx.rxd.read s.rx.writeCursor.toNat = some b) ∧
      ∀ k, k ≠ s.rx.writeCursor.toNat → t.rx.rxd.read k = s.rx.rxd.read k)

/-! ## The status handler -/

/-- R160 to R163: RX_EVENT. NO_SESSION changes nothing. In a session it always gives OK with EVT_STATUS(code), and moves RX by
the transition table; a carrier-lost code also drops the deframer's frame; a code other than the two carrier codes, negative
or not, changes nothing; in STREAM_ENDED nothing changes. A negative RX_ACCEPT with the same code has the same effect. -/
def Obligations.RxEventFollowsTheTransitionTable : Prop :=
  ∀ (s : State) (code : Word),
    (s.rx.active = false →
      exec (.rxEvent code) s = .next (s.plus ⟨.noSession, some (code.setWidth 40), [], []⟩)) ∧
    (code.toInt < 0 → exec (.rxAccept code) s = exec (.rxEvent code) s) ∧
    (s.rx.active = true →
      ∃ rx : RxUnit,
        exec (.rxEvent code) s = .next { s with
          rx := rx, responses := s.responses ++ [⟨.ok, none, [], [.status code]⟩] } ∧
        (s.rx.state = .streamEnded → rx = s.rx) ∧
        (s.rx.state ≠ .streamEnded → code.toInt = -1 → s.rx.cont = false →
          rx = { s.rx with state := .streamEnded, eos := true, rxdState := .hunt,
                           rxdCount := 0#4, rxdShift := 0#8 }) ∧
        (s.rx.state ≠ .streamEnded → code.toInt = -1 → s.rx.cont = true →
          rx = { s.rx with state := .carrierLost, rxdState := .hunt, rxdCount := 0#4,
                           rxdShift := 0#8 }) ∧
        (s.rx.state ≠ .streamEnded → code.toInt ≠ -1 → code = s.params.sigCarrierUp →
          rx = { s.rx with state := .carrierPresent }) ∧
        (code.toInt ≠ -1 → code ≠ s.params.sigCarrierUp → rx = s.rx))

/-- R164: the end-of-stream laws, in a session, for a status code on either path. With CONTINUE = 0 a carrier-lost code sets
EOS, and once EOS is 1 every status leaves it 1; with CONTINUE = 1 no status code sets it, and only BUFFER_OVERFLOW does;
once it is 1 data symbols raise STREAM_ENDED and write nothing. -/
def Obligations.EndOfStreamLaws : Prop :=
  (∀ (i : Instr) (s t : State) (code : Word), s.Legal → s.rx.active = true →
    (i = .rxEvent code ∨ (i = .rxAccept code ∧ code.toInt < 0)) → exec i s = .next t →
      (s.rx.cont = false → code.toInt = -1 → t.rx.eos = true) ∧
      (s.rx.eos = true → t.rx.eos = true) ∧
      (s.rx.cont = true → t.rx.eos = s.rx.eos)) ∧
  (∀ (i : Instr) (s t : State), s.rx.active = true → s.rx.cont = true → s.rx.eos = false →
    exec i s = .next t → t.rx.eos = true →
      ∃ info, t.responses = s.responses ++ [⟨.bufferOverflow, some info, [], []⟩]) ∧
  (∀ (s : State) (v : Word), s.rx.active = true → s.rx.eos = true → 0 ≤ v.toInt →
    exec (.rxAccept v) s =
      .next (s.plus ⟨.streamEnded, some ((v.extractLsb' 0 8).setWidth 40), [], []⟩))

/-- R241: EOS goes from 0 to 1 in only two ways: by a carrier-lost code with CONTINUE = 0, and by BUFFER_OVERFLOW, which
alone sets OVF. -/
def Obligations.EndOfStreamHasTwoCauses : Prop :=
  ∀ (i : Instr) (s t : State), s.rx.eos = false → exec i s = .next t → t.rx.eos = true →
    (s.rx.cont = false ∧ t.rx.ovf = s.rx.ovf ∧
      (i = .rxEvent Config.sigCarrierLost ∨ i = .rxAccept Config.sigCarrierLost)) ∨
    (t.rx.ovf = true ∧ s.rx.capacity ≤ s.rx.writeCursor ∧
      ∃ info, t.responses = s.responses ++ [⟨.bufferOverflow, some info, [], []⟩])

/-- R32: OVF is set only with EOS, and within a session no operation but RX_CLOSE clears either. -/
def Obligations.EndOfStreamIsNeverCleared : Prop :=
  (∀ s : State, s.Legal → s.rx.ovf = true → s.rx.eos = true) ∧
  ∀ (i : Instr) (s t : State), s.rx.active = true → i ≠ .rxClose → exec i s = .next t →
    (s.rx.ovf = true → t.rx.ovf = true) ∧ (s.rx.eos = true → t.rx.eos = true)

/-- R165: LISTENING is entered only by RX_OPEN and RX_CLOSE. -/
def Obligations.ListeningIsEnteredOnlyByOpenAndClose : Prop :=
  ∀ (i : Instr) (s t : State), exec i s = .next t → s.rx.state ≠ .listening →
    t.rx.state = .listening → i = .rxClose ∨ ∃ c e k, i = .rxOpen c e k

/-! ## The deframer -/

/-- R181, HUNT and the eight data bits: a 1 in HUNT changes nothing, a 0 is a start bit; in DATA the line bit becomes data
bit RXD_COUNT, least significant first. Nothing else changes. -/
def Obligations.RxLinebitTakesTheFrame : Prop :=
  ∀ (s : State), s.rx.active = true →
    (s.rx.rxdState = .hunt →
      exec (.rxLinebit true) s = .next (s.plus plainOk) ∧
      exec (.rxLinebit false) s = .next { s with
        rx := { s.rx with rxdState := .data, rxdCount := 0#4, rxdShift := 0#8 }
        responses := s.responses ++ [plainOk] }) ∧
    (∀ b : Bool, s.rx.rxdState = .data → s.rx.rxdCount.toNat < 8 →
      ∃ (shift : Byte) (count : BitVec 4),
        exec (.rxLinebit b) s = .next { s with
          rx := { s.rx with rxdCount := count, rxdShift := shift }
          responses := s.responses ++ [plainOk] } ∧
        count.toNat = s.rx.rxdCount.toNat + 1 ∧
        ∀ i, i < 8 → shift.getLsbD i =
          if i = s.rx.rxdCount.toNat then b else s.rx.rxdShift.getLsbD i)

/-- R181 and R132, the stop-bit position with a 1: the deframer is back in HUNT, and the byte goes through the intake:
STREAM_ENDED, BUFFER_OVERFLOW, or stored at RXD[WRITE_CURSOR]. That STREAM_ENDED leaves the deframer in HUNT is R181 taken
over the general sentence of R202 (assumption 13, DEDUCED). -/
def Obligations.RxLinebitDeliversTheByte : Prop :=
  ∀ s : State, s.rx.active = true → s.rx.rxdState = .data → s.rx.rxdCount.toNat = 8 →
    (s.rx.eos = true →
      exec (.rxLinebit true) s = .next { s with
        rx := { s.rx with rxdState := .hunt, rxdCount := 0#4, rxdShift := 0#8 }
        responses := s.responses ++
          [⟨.streamEnded, some (s.rx.rxdShift.setWidth 40), [], []⟩] }) ∧
    (s.rx.eos = false → s.rx.capacity ≤ s.rx.writeCursor →
      exec (.rxLinebit true) s = .next { s with
        rx := { s.rx with rxdState := .hunt, rxdCount := 0#4, rxdShift := 0#8, ovf := true,
                          eos := true, state := .streamEnded }
        responses := s.responses ++
          [⟨.bufferOverflow, some (s.rx.rxdShift.setWidth 40), [], []⟩] }) ∧
    (s.rx.eos = false → s.rx.writeCursor < s.rx.capacity → s.rx.writeCursor.toNat < 65536 →
      ∃ rxd : Memory,
        exec (.rxLinebit true) s = .next { s with
          rx := { s.rx with rxdState := .hunt, rxdCount := 0#4, rxdShift := 0#8,
                            writeCursor := s.rx.writeCursor + 1#17, rxd := rxd }
          responses := s.responses ++ [plainOk] } ∧
        rxd.read s.rx.writeCursor.toNat = some s.rx.rxdShift ∧
        ∀ k, k ≠ s.rx.writeCursor.toNat → rxd.read k = s.rx.rxd.read k)

/-- R182: a 0 at the stop-bit position discards the frame: EVT_FRAMING_ERROR with the 8 bits taken, HUNT, OK, RXD and
everything else unchanged, and the 0 is no start bit. -/
def Obligations.FramingErrorDiscardsTheFrame : Prop :=
  ∀ s : State, s.rx.active = true → s.rx.rxdState = .data → s.rx.rxdCount.toNat = 8 →
    exec (.rxLinebit false) s = .next { s with
      rx := { s.rx with rxdState := .hunt, rxdCount := 0#4, rxdShift := 0#8 }
      responses := s.responses ++ [⟨.ok, none, [], [.framingError s.rx.rxdShift]⟩] }

/-- R184: RX_LINEBIT hands a byte to RXD on the stop bit and never sooner; a status code that arrives inside a frame drops it
if it is carrier lost (and the stream has not ended, R161: assumption 14) and otherwise leaves it in progress. -/
def Obligations.BytesAreDeliveredOnTheStopBit : Prop :=
  (∀ (s t : State) (b : Bool), s.Legal → exec (.rxLinebit b) s = .next t →
    t.rx.writeCursor ≠ s.rx.writeCursor →
      b = true ∧ s.rx.rxdState = .data ∧ s.rx.rxdCount = 8#4 ∧
      t.rx.writeCursor.toNat = s.rx.writeCursor.toNat + 1 ∧
      t.rx.rxd.read s.rx.writeCursor.toNat = some s.rx.rxdShift) ∧
  (∀ (s t : State) (code : Word), s.rx.active = true → exec (.rxEvent code) s = .next t →
    (code.toInt = -1 → s.rx.state ≠ .streamEnded →
      t.rx.rxdState = .hunt ∧ t.rx.rxdCount = 0#4 ∧ t.rx.rxdShift = 0#8) ∧
    (code.toInt ≠ -1 →
      t.rx.rxdState = s.rx.rxdState ∧ t.rx.rxdCount = s.rx.rxdCount ∧
      t.rx.rxdShift = s.rx.rxdShift))

/-- R183: the round trip. Idle 1s in HUNT change nothing. Open a TX session for message m, take the bits of its first 10n
calls (under REFERENCE also those of the frame of the drawn byte TXS[n]), and feed them to a newly opened RX session with
room, with any number of idle 1s before and after: RX holds exactly the message (followed by that byte). -/
def Obligations.RoundTripThroughTheLine : Prop :=
  (∀ (s : State) (k : Nat), s.rx.active = true → s.rx.rxdState = .hunt →
    execAll (List.replicate k (.rxLinebit true)) s =
      .next { s with responses := s.responses ++ List.replicate k plainOk }) ∧
  (∀ (s : State) (m : List Byte) (c e : Bool) (cap : BitVec 30) (before after : Nat),
    s.tx.active = false → s.rx.active = false → 1 ≤ m.length → m.length ≤ s.params.txMaxLen →
    ∃ u, exec (.txOpen m) s = .next u ∧
      ∀ sent : List Byte,
        (sent = m ∨ (s.params.boundary = .reference ∧
          ∃ d, u.tx.txs.read m.length = some d ∧ sent = m ++ [d])) →
        cap.toNat ≤ 65536 →
        (sent.length ≤ cap.toNat ∨ (cap = 0#30 ∧ sent.length ≤ 65536)) →
        ∃ t v,
          execAll (List.replicate (10 * sent.length) .txNextBit) u = .next t ∧
          execAll (.rxOpen c e cap ::
            (List.replicate before true ++ bitsOf (t.responses.drop u.responses.length) ++
              List.replicate after true).map .rxLinebit) t = .next v ∧
          v.rx.writeCursor.toNat = sent.length ∧
          (∀ (k : Nat) (b : Byte), sent[k]? = some b → v.rx.rxd.read k = some b) ∧
          v.rx.eos = false ∧ v.rx.rxdState = .hunt ∧
          exec .rxResult v = .next (v.plus
            ⟨.ok, none, .word (BitVec.ofNat 32 sent.length) :: sent.map .byte, []⟩))
end

