-- ==== Sys2Proof/Laws/Decode.lean ====
section
/-! SUPPORT. Small lemmas about command words, their fields and data phases. -/

namespace Sys2Proof

/-- The bits of a command word: the operand below bit 32, the opcode above. -/
theorem getLsbD_commandWord (op : Byte) (x : Word) (i : Nat) :
    (commandWord op x).getLsbD i = if i < 32 then x.getLsbD i else op.getLsbD (i - 32) :=
  (BitVec.getLsbD_append (x := op) (y := x) (i := i)).trans (by cases decide (i < 32) <;> simp)

@[simp] theorem opcodeOf_commandWord (op : Byte) (x : Word) : opcodeOf (commandWord op x) = op := by
  apply BitVec.eq_of_getLsbD_eq
  intro i hi
  simp [opcodeOf, getLsbD_commandWord, hi]

@[simp] theorem operandOf_commandWord (op : Byte) (x : Word) : operandOf (commandWord op x) = x := by
  apply BitVec.eq_of_getLsbD_eq
  intro i hi
  simp [operandOf, getLsbD_commandWord, hi]

/-- A command word is its opcode and its operand. -/
theorem commandWord_fields (w : CommandWord) : commandWord (opcodeOf w) (operandOf w) = w := by
  apply BitVec.eq_of_getLsbD_eq
  intro i hi
  simp only [opcodeOf, operandOf, getLsbD_commandWord, BitVec.getLsbD_extractLsb']
  split
  · simp [*]
  · have h : i - 32 < 8 := by omega
    have e : 32 + (i - 32) = i := by omega
    simp [h, e]

@[simp] theorem opcodeOf_encodeWord (i : Instr) : opcodeOf (encodeWord i) = opcodeBits i :=
  opcodeOf_commandWord _ _

@[simp] theorem operandOf_encodeWord (i : Instr) : operandOf (encodeWord i) = operandBits i :=
  operandOf_commandWord _ _

/-- The bits of RX_OPEN's operand (R76). -/
theorem getLsbD_openOperand (c s : Bool) (k : BitVec 30) (i : Nat) :
    (openOperand c s k).getLsbD i =
      if i < 1 then c else if i < 2 then s else k.getLsbD (i - 2) := by
  have key : (openOperand c s k).getLsbD i =
      BitVec.getLsbD (w := 30 + 1 + 1) (k ++ bit1 s ++ bit1 c) i := rfl
  rw [key]
  simp only [BitVec.getLsbD_append, bit1, BitVec.getLsbD_ofBool]
  grind

/-- The bits of RX_LINEBIT's operand (R76). -/
theorem getLsbD_lineOperand (b : Bool) (i : Nat) :
    (lineOperand b).getLsbD i = if i = 0 then b else false := by
  by_cases h : i = 0
  · subst h
    cases b <;> rfl
  · simp [lineOperand, bit1, h]

/-- RX_OPEN's operand is made of its three fields. -/
theorem openOperand_fields (x : Word) :
    openOperand (x.getLsbD 0) (x.getLsbD 1) (x.extractLsb' 2 30) = x := by
  apply BitVec.eq_of_getLsbD_eq
  intro i hi
  rw [getLsbD_openOperand, BitVec.getLsbD_extractLsb']
  split
  · rw [show i = 0 by omega]
  · split
    · rw [show i = 1 by omega]
    · rw [show 2 + (i - 2) = i by omega]
      simp only [Bool.and_eq_right_iff_imp, decide_eq_true_eq]
      omega

/-- RX_LINEBIT's operand is its line bit when the other bits are 0. -/
theorem lineOperand_field {x : Word} (h : x.extractLsb' 1 31 = 0#31) :
    lineOperand (x.getLsbD 0) = x := by
  apply BitVec.eq_of_getLsbD_eq
  intro i hi
  rw [getLsbD_lineOperand]
  split
  · subst_vars; rfl
  · have hb : (x.extractLsb' 1 31).getLsbD (i - 1) = false := by rw [h]; simp
    rw [BitVec.getLsbD_extractLsb', show 1 + (i - 1) = i by omega, Bool.and_eq_false_iff] at hb
    rcases hb with t | t
    · simp only [decide_eq_false_iff_not] at t; omega
    · exact t.symm

/-- What format N says when it accepts. -/
theorem decodeFormatN_whole {x : Word} {i j : Instr} (h : decodeFormatN x i = .whole j) :
    x = 0#32 ∧ j = i := by
  unfold decodeFormatN at h
  split at h <;> simp_all

/-- What a command word says when it is a whole operation: its fields are that operation's, and no data follows. -/
theorem decodeHead_whole {w : CommandWord} {i : Instr} (h : decodeHead w = .whole i) :
    opcodeOf w = opcodeBits i ∧ operandOf w = operandBits i ∧ dataBytes i = [] ∧
      i.wf = true ∧ dataLength w = 0 := by
  have fin : ∀ j : Instr, opcodeOf w = opcodeBits j → operandOf w = operandBits j →
      dataBytes j = [] → j.wf = true → opcodeBits j ≠ 0x01#8 → i = j →
      opcodeOf w = opcodeBits i ∧ operandOf w = operandBits i ∧ dataBytes i = [] ∧
        i.wf = true ∧ dataLength w = 0 := by
    rintro j h1 h2 h3 h4 h5 rfl
    exact ⟨h1, h2, h3, h4, by simp [dataLength, h1, h5]⟩
  unfold decodeHead at h
  split at h <;> rename_i ho
  · simp at h
  · obtain ⟨hx, e⟩ := decodeFormatN_whole h
    exact fin .txNextBit ho hx rfl rfl (by decide) e
  · obtain ⟨hx, e⟩ := decodeFormatN_whole h
    exact fin .txClose ho hx rfl rfl (by decide) e
  · obtain ⟨hx, e⟩ := decodeFormatN_whole h
    exact fin .txRdsr ho hx rfl rfl (by decide) e
  · simp only [decodeFormatC, Head.whole.injEq] at h
    exact fin (.rxOpen _ _ _) ho (openOperand_fields _).symm rfl rfl (by simp [opcodeBits]) h.symm
  · simp only [Head.whole.injEq] at h
    exact fin (.rxAccept _) ho rfl rfl rfl (by simp [opcodeBits]) h.symm
  · simp only [Head.whole.injEq] at h
    exact fin (.rxEvent _) ho rfl rfl rfl (by simp [opcodeBits]) h.symm
  · unfold decodeFormatB at h
    split at h
    · rename_i hz
      simp only [Head.whole.injEq] at h
      exact fin (.rxLinebit _) ho (lineOperand_field hz).symm rfl rfl (by simp [opcodeBits]) h.symm
    · simp at h
  · obtain ⟨hx, e⟩ := decodeFormatN_whole h
    exact fin .rxResult ho hx rfl rfl (by decide) e
  · obtain ⟨hx, e⟩ := decodeFormatN_whole h
    exact fin .rxClose ho hx rfl rfl (by decide) e
  · obtain ⟨hx, e⟩ := decodeFormatN_whole h
    exact fin .rxRdsr ho hx rfl rfl (by decide) e
  · simp at h

/-- What a command word says when it begins a TX_OPEN: its opcode, its length, and that so many data bytes follow. -/
theorem decodeHead_opens {w : CommandWord} {n : Word} (h : decodeHead w = .opensMessage n) :
    opcodeOf w = 0x01#8 ∧ operandOf w = n ∧ dataLength w = n.toNat := by
  have ho : opcodeOf w = 0x01#8 ∧ operandOf w = n := by
    unfold decodeHead at h
    split at h <;> simp_all [decodeFormatN, decodeFormatB, decodeFormatC]
    all_goals (split at h <;> simp at h)
  exact ⟨ho.1, ho.2, by simp [dataLength, ho.1, ho.2]⟩

/-- No data bytes follow an illegal command word. -/
theorem decodeHead_illegal {w : CommandWord} (h : decodeHead w = .illegal) : dataLength w = 0 := by
  have ho : opcodeOf w ≠ 0x01#8 := by
    intro ho
    simp [decodeHead, ho] at h
  simp [dataLength, ho]

/-- A TX_OPEN's word begins a message of its length. -/
theorem decodeHead_txOpen (n : Word) : decodeHead (commandWord 0x01#8 n) = .opensMessage n := by
  simp [decodeHead]

/-- Taking a whole data phase gives its bytes and the items after it. -/
theorem takeData_append (m : List Byte) (rest : List Item) :
    takeData (m.map .byte ++ rest) m.length = .complete m rest := by
  induction m with
  | nil => cases rest <;> rfl
  | cons b m ih => simp [takeData, ih, DataPhase.consByte]

/-- What a complete data phase says about the stream. -/
theorem takeData_complete {items : List Item} {n : Nat} {m : List Byte} {rest : List Item}
    (h : takeData items n = .complete m rest) : items = m.map .byte ++ rest ∧ m.length = n := by
  induction items generalizing n m rest with
  | nil =>
    cases n with
    | zero => simp only [takeData, DataPhase.complete.injEq] at h; simp [← h.1, ← h.2]
    | succ n => simp [takeData] at h
  | cons c items ih =>
    cases n with
    | zero => simp only [takeData, DataPhase.complete.injEq] at h; simp [← h.1, ← h.2]
    | succ n =>
      cases c with
      | word w => simp [takeData] at h
      | byte b =>
        simp only [takeData] at h
        cases hd : takeData items n with
        | complete m' rest' =>
          rw [hd] at h
          simp only [DataPhase.consByte, DataPhase.complete.injEq] at h
          obtain ⟨rfl, rfl⟩ := h
          obtain ⟨h1, h2⟩ := ih hd
          simp [h1, h2]
        | short => rw [hd] at h; simp [DataPhase.consByte] at h
        | broken => rw [hd] at h; simp [DataPhase.consByte] at h

/-- A stream that ends inside a data phase. -/
theorem takeData_short (bs : List Byte) {n : Nat} (h : bs.length < n) :
    takeData (bs.map .byte) n = .short := by
  induction bs generalizing n with
  | nil => cases n with
    | zero => simp at h
    | succ n => rfl
  | cons b bs ih => cases n with
    | zero => simp at h
    | succ n =>
      simp only [List.length_cons, Nat.add_lt_add_iff_right] at h
      simp [takeData, ih h, DataPhase.consByte]

/-- A command word inside a data phase. -/
theorem takeData_broken (bs : List Byte) (w : CommandWord) (rest : List Item) {n : Nat}
    (h : bs.length < n) : takeData (bs.map .byte ++ .word w :: rest) n = .broken := by
  induction bs generalizing n with
  | nil => cases n with
    | zero => simp at h
    | succ n => rfl
  | cons b bs ih => cases n with
    | zero => simp at h
    | succ n =>
      simp only [List.length_cons, Nat.add_lt_add_iff_right] at h
      simp [takeData, ih h, DataPhase.consByte]

/-- A stream that keeps to R79 has no broken data phase, and keeps to R79 after a complete one. -/
theorem takeData_streamOk {items : List Item} {n : Nat} (h : streamOk n items = true) :
    takeData items n ≠ .broken ∧
      ∀ m rest, takeData items n = .complete m rest → streamOk 0 rest = true := by
  induction items generalizing n with
  | nil =>
    cases n with
    | zero =>
      refine ⟨by simp [takeData], fun m rest e => ?_⟩
      simp only [takeData, DataPhase.complete.injEq] at e
      simp [← e.2, streamOk]
    | succ n => simp [takeData]
  | cons c items ih =>
    cases n with
    | zero =>
      refine ⟨by simp [takeData], fun m rest e => ?_⟩
      simp only [takeData, DataPhase.complete.injEq] at e
      rw [← e.2]; exact h
    | succ n =>
      cases c with
      | word w => simp [streamOk] at h
      | byte b =>
        simp only [streamOk] at h
        obtain ⟨h1, h2⟩ := ih h
        cases hd : takeData items n with
        | complete m' rest' =>
          refine ⟨by simp [takeData, hd, DataPhase.consByte], fun m rest e => ?_⟩
          simp only [takeData, hd, DataPhase.consByte, DataPhase.complete.injEq] at e
          rw [← e.2]; exact h2 _ _ hd
        | short => simp [takeData, hd, DataPhase.consByte]
        | broken => exact absurd hd h1

end Sys2Proof
end

