-- ==== Sys2Proof/Laws/Memory.lean ====
section
/-! SUPPORT. The laws of the byte spaces: read after write, and that every operation keeps the canonical form. -/

namespace Sys2Proof.Machine

theorem Memory.read_write (m : Memory) (a k : Nat) (v : Byte) :
    (m.write a v).read k = if k = a then some v else m.read k := by
  induction m with
  | nil => simp [Memory.write, Memory.read, eq_comm]
  | cons c cells ih =>
    obtain ⟨i, w⟩ := c
    simp only [Memory.write]
    split
    · simp only [Memory.read, eq_comm]
    · split
      · subst_vars
        simp only [Memory.read, eq_comm]
        split <;> rfl
      · simp only [Memory.read, ih]
        split <;> split <;> first | rfl | omega

@[simp] theorem Memory.read_write_same (m : Memory) (a : Nat) (v : Byte) :
    (m.write a v).read a = some v := by simp [Memory.read_write]

theorem Memory.read_write_other (m : Memory) {a k : Nat} (v : Byte) (h : k ≠ a) :
    (m.write a v).read k = m.read k := by simp [Memory.read_write, h]

/-- An index of a written space is the one written or one that was there. -/
theorem Memory.mem_write {m : Memory} {a : Nat} {v : Byte} {c : Host.Cell} (h : c ∈ m.write a v) :
    c.1 = a ∨ c ∈ m := by
  induction m with
  | nil => simp [Memory.write] at h; simp [h]
  | cons d cells ih =>
    obtain ⟨i, w⟩ := d
    simp only [Memory.write] at h
    split at h
    · rcases List.mem_cons.1 h with rfl | h
      · exact .inl rfl
      · exact .inr h
    · split at h
      · rcases List.mem_cons.1 h with rfl | h
        · exact .inl rfl
        · exact .inr (List.mem_cons_of_mem _ h)
      · rcases List.mem_cons.1 h with rfl | h
        · exact .inr (by simp)
        · exact (ih h).imp_right (List.mem_cons_of_mem _)

/-- A write keeps the canonical form. -/
theorem Memory.wf_write {m : Memory} (h : m.wf) (a : Nat) (v : Byte) : (m.write a v).wf := by
  induction m with
  | nil => simp [Memory.write, Memory.wf]
  | cons d cells ih =>
    obtain ⟨i, w⟩ := d
    have hc : ∀ e ∈ cells, i < e.1 := (List.pairwise_cons.1 h).1
    have ht : Memory.wf cells := (List.pairwise_cons.1 h).2
    simp only [Memory.write]
    split
    · rename_i hai
      refine List.pairwise_cons.2 ⟨fun e he => ?_, h⟩
      rcases List.mem_cons.1 he with rfl | he
      · exact hai
      · exact hai.trans (hc e he)
    · split
      · subst_vars
        exact List.pairwise_cons.2 ⟨hc, ht⟩
      · refine List.pairwise_cons.2 ⟨fun e he => ?_, ih ht⟩
        rcases Memory.mem_write he with he | he
        · simp only [he]; omega
        · exact hc e he

/-- Writing at consecutive indices keeps the canonical form. -/
theorem Memory.wf_writeAll {m : Memory} (h : m.wf) (a : Nat) (bs : List Byte) :
    (m.writeAll a bs).wf := by
  induction bs generalizing m a with
  | nil => exact h
  | cons b bs ih => exact ih (Memory.wf_write h a b) _

theorem Memory.wf_nil : Memory.wf [] := List.Pairwise.nil

/-- Both byte spaces have the canonical form after reset. -/
theorem State.reset_memories_wf : State.reset.tx.txs.wf ∧ State.reset.rx.rxd.wf :=
  ⟨Memory.wf_nil, Memory.wf_nil⟩

/-- Every index of a space written at consecutive indices is one of those or one that was there. -/
theorem Memory.mem_writeAll {m : Memory} {a : Nat} {bs : List Byte} {c : Host.Cell}
    (h : c ∈ m.writeAll a bs) : (a ≤ c.1 ∧ c.1 < a + bs.length) ∨ c ∈ m := by
  induction bs generalizing m a with
  | nil => exact .inr h
  | cons b bs ih =>
    rcases ih h with h | h
    · simp only [List.length_cons]; omega
    · rcases Memory.mem_write h with h | h
      · simp only [List.length_cons]; omega
      · exact .inr h

/-- What a space written at consecutive indices reads as: the bytes written there, and what it read as before elsewhere. -/
theorem Memory.read_writeAll (m : Memory) (a : Nat) (bs : List Byte) (k : Nat) :
    (m.writeAll a bs).read k =
      if a ≤ k ∧ k < a + bs.length then bs[k - a]? else m.read k := by
  induction bs generalizing m a with
  | nil =>
    have h : ¬ (a ≤ k ∧ k < a + ([] : List Byte).length) := by simp
    rw [if_neg h]; rfl
  | cons b bs ih =>
    rw [Memory.writeAll, ih, Memory.read_write]
    simp only [List.length_cons]
    by_cases hk : k = a
    · subst hk; simp
    · by_cases hr : a ≤ k ∧ k < a + (bs.length + 1)
      · have e : k - a = (k - (a + 1)) + 1 := by omega
        rw [if_pos (by omega), if_pos hr, e, List.getElem?_cons_succ]
      · rw [if_neg (by omega), if_neg hr, if_neg hk]

end Sys2Proof.Machine
end

