-- ==== Sys2Proof/Laws/State.lean ====
section
/-! SUPPORT. One lemma for each field of each named update, true by rfl, so that no proof unfolds a record update. -/

namespace Sys2Proof.Machine

/-! ## Updates of the whole state -/

@[simp] theorem State.endTx_tx (s : State) (u : TxUnit) (r : Response) : (s.endTx u r).tx = u := rfl
@[simp] theorem State.endTx_rx (s : State) (u : TxUnit) (r : Response) : (s.endTx u r).rx = s.rx := rfl
@[simp] theorem State.endTx_params (s : State) (u : TxUnit) (r : Response) :
    (s.endTx u r).params = s.params := rfl
@[simp] theorem State.endTx_commands (s : State) (u : TxUnit) (r : Response) :
    (s.endTx u r).commands = s.commands := rfl
@[simp] theorem State.endTx_responses (s : State) (u : TxUnit) (r : Response) :
    (s.endTx u r).responses = s.responses ++ [r] := rfl

@[simp] theorem State.endRx_tx (s : State) (u : RxUnit) (r : Response) : (s.endRx u r).tx = s.tx := rfl
@[simp] theorem State.endRx_rx (s : State) (u : RxUnit) (r : Response) : (s.endRx u r).rx = u := rfl
@[simp] theorem State.endRx_params (s : State) (u : RxUnit) (r : Response) :
    (s.endRx u r).params = s.params := rfl
@[simp] theorem State.endRx_commands (s : State) (u : RxUnit) (r : Response) :
    (s.endRx u r).commands = s.commands := rfl
@[simp] theorem State.endRx_responses (s : State) (u : RxUnit) (r : Response) :
    (s.endRx u r).responses = s.responses ++ [r] := rfl

@[simp] theorem State.plus_tx (s : State) (r : Response) : (s.plus r).tx = s.tx := rfl
@[simp] theorem State.plus_rx (s : State) (r : Response) : (s.plus r).rx = s.rx := rfl
@[simp] theorem State.plus_params (s : State) (r : Response) : (s.plus r).params = s.params := rfl
@[simp] theorem State.plus_commands (s : State) (r : Response) : (s.plus r).commands = s.commands := rfl
@[simp] theorem State.plus_responses (s : State) (r : Response) :
    (s.plus r).responses = s.responses ++ [r] := rfl

@[simp] theorem State.take_tx (s : State) (items : List Item) : (s.take items).tx = s.tx := rfl
@[simp] theorem State.take_rx (s : State) (items : List Item) : (s.take items).rx = s.rx := rfl
@[simp] theorem State.take_params (s : State) (items : List Item) : (s.take items).params = s.params := rfl
@[simp] theorem State.take_commands (s : State) (items : List Item) : (s.take items).commands = items := rfl
@[simp] theorem State.take_responses (s : State) (items : List Item) :
    (s.take items).responses = s.responses := rfl

/-- Ending a TX operation that leaves the unit as it was only adds its response. -/
theorem State.endTx_self (s : State) (r : Response) : s.endTx s.tx r = s.plus r := rfl

/-- Ending an RX operation that leaves the unit as it was only adds its response. -/
theorem State.endRx_self (s : State) (r : Response) : s.endRx s.rx r = s.plus r := rfl

/-! ## Updates of the receive unit -/

@[simp] theorem RxUnit.toHunt_active (u : RxUnit) : u.toHunt.active = u.active := rfl
@[simp] theorem RxUnit.toHunt_capacity (u : RxUnit) : u.toHunt.capacity = u.capacity := rfl
@[simp] theorem RxUnit.toHunt_writeCursor (u : RxUnit) : u.toHunt.writeCursor = u.writeCursor := rfl
@[simp] theorem RxUnit.toHunt_cont (u : RxUnit) : u.toHunt.cont = u.cont := rfl
@[simp] theorem RxUnit.toHunt_emitSilence (u : RxUnit) : u.toHunt.emitSilence = u.emitSilence := rfl
@[simp] theorem RxUnit.toHunt_state (u : RxUnit) : u.toHunt.state = u.state := rfl
@[simp] theorem RxUnit.toHunt_eos (u : RxUnit) : u.toHunt.eos = u.eos := rfl
@[simp] theorem RxUnit.toHunt_ovf (u : RxUnit) : u.toHunt.ovf = u.ovf := rfl
@[simp] theorem RxUnit.toHunt_rxdState (u : RxUnit) : u.toHunt.rxdState = .hunt := rfl
@[simp] theorem RxUnit.toHunt_rxdCount (u : RxUnit) : u.toHunt.rxdCount = 0#4 := rfl
@[simp] theorem RxUnit.toHunt_rxdShift (u : RxUnit) : u.toHunt.rxdShift = 0#8 := rfl
@[simp] theorem RxUnit.toHunt_rxd (u : RxUnit) : u.toHunt.rxd = u.rxd := rfl

@[simp] theorem RxUnit.overflow_active (u : RxUnit) : u.overflow.active = u.active := rfl
@[simp] theorem RxUnit.overflow_capacity (u : RxUnit) : u.overflow.capacity = u.capacity := rfl
@[simp] theorem RxUnit.overflow_writeCursor (u : RxUnit) : u.overflow.writeCursor = u.writeCursor := rfl
@[simp] theorem RxUnit.overflow_cont (u : RxUnit) : u.overflow.cont = u.cont := rfl
@[simp] theorem RxUnit.overflow_emitSilence (u : RxUnit) : u.overflow.emitSilence = u.emitSilence := rfl
@[simp] theorem RxUnit.overflow_state (u : RxUnit) : u.overflow.state = .streamEnded := rfl
@[simp] theorem RxUnit.overflow_eos (u : RxUnit) : u.overflow.eos = true := rfl
@[simp] theorem RxUnit.overflow_ovf (u : RxUnit) : u.overflow.ovf = true := rfl
@[simp] theorem RxUnit.overflow_rxdState (u : RxUnit) : u.overflow.rxdState = u.rxdState := rfl
@[simp] theorem RxUnit.overflow_rxdCount (u : RxUnit) : u.overflow.rxdCount = u.rxdCount := rfl
@[simp] theorem RxUnit.overflow_rxdShift (u : RxUnit) : u.overflow.rxdShift = u.rxdShift := rfl
@[simp] theorem RxUnit.overflow_rxd (u : RxUnit) : u.overflow.rxd = u.rxd := rfl

@[simp] theorem RxUnit.store_active (u : RxUnit) (b : Byte) : (u.store b).active = u.active := rfl
@[simp] theorem RxUnit.store_capacity (u : RxUnit) (b : Byte) : (u.store b).capacity = u.capacity := rfl
@[simp] theorem RxUnit.store_writeCursor (u : RxUnit) (b : Byte) :
    (u.store b).writeCursor = u.writeCursor + 1#17 := rfl
@[simp] theorem RxUnit.store_cont (u : RxUnit) (b : Byte) : (u.store b).cont = u.cont := rfl
@[simp] theorem RxUnit.store_emitSilence (u : RxUnit) (b : Byte) :
    (u.store b).emitSilence = u.emitSilence := rfl
@[simp] theorem RxUnit.store_state (u : RxUnit) (b : Byte) : (u.store b).state = u.state := rfl
@[simp] theorem RxUnit.store_eos (u : RxUnit) (b : Byte) : (u.store b).eos = u.eos := rfl
@[simp] theorem RxUnit.store_ovf (u : RxUnit) (b : Byte) : (u.store b).ovf = u.ovf := rfl
@[simp] theorem RxUnit.store_rxdState (u : RxUnit) (b : Byte) : (u.store b).rxdState = u.rxdState := rfl
@[simp] theorem RxUnit.store_rxdCount (u : RxUnit) (b : Byte) : (u.store b).rxdCount = u.rxdCount := rfl
@[simp] theorem RxUnit.store_rxdShift (u : RxUnit) (b : Byte) : (u.store b).rxdShift = u.rxdShift := rfl
@[simp] theorem RxUnit.store_rxd (u : RxUnit) (b : Byte) :
    (u.store b).rxd = u.rxd.write u.writeCursor.toNat b := rfl

@[simp] theorem RxUnit.startFrame_active (u : RxUnit) : u.startFrame.active = u.active := rfl
@[simp] theorem RxUnit.startFrame_capacity (u : RxUnit) : u.startFrame.capacity = u.capacity := rfl
@[simp] theorem RxUnit.startFrame_writeCursor (u : RxUnit) : u.startFrame.writeCursor = u.writeCursor := rfl
@[simp] theorem RxUnit.startFrame_cont (u : RxUnit) : u.startFrame.cont = u.cont := rfl
@[simp] theorem RxUnit.startFrame_emitSilence (u : RxUnit) : u.startFrame.emitSilence = u.emitSilence := rfl
@[simp] theorem RxUnit.startFrame_state (u : RxUnit) : u.startFrame.state = u.state := rfl
@[simp] theorem RxUnit.startFrame_eos (u : RxUnit) : u.startFrame.eos = u.eos := rfl
@[simp] theorem RxUnit.startFrame_ovf (u : RxUnit) : u.startFrame.ovf = u.ovf := rfl
@[simp] theorem RxUnit.startFrame_rxdState (u : RxUnit) : u.startFrame.rxdState = .data := rfl
@[simp] theorem RxUnit.startFrame_rxdCount (u : RxUnit) : u.startFrame.rxdCount = 0#4 := rfl
@[simp] theorem RxUnit.startFrame_rxdShift (u : RxUnit) : u.startFrame.rxdShift = 0#8 := rfl
@[simp] theorem RxUnit.startFrame_rxd (u : RxUnit) : u.startFrame.rxd = u.rxd := rfl

@[simp] theorem RxUnit.takeBit_active (u : RxUnit) (b : Bool) : (u.takeBit b).active = u.active := rfl
@[simp] theorem RxUnit.takeBit_capacity (u : RxUnit) (b : Bool) : (u.takeBit b).capacity = u.capacity := rfl
@[simp] theorem RxUnit.takeBit_writeCursor (u : RxUnit) (b : Bool) :
    (u.takeBit b).writeCursor = u.writeCursor := rfl
@[simp] theorem RxUnit.takeBit_cont (u : RxUnit) (b : Bool) : (u.takeBit b).cont = u.cont := rfl
@[simp] theorem RxUnit.takeBit_emitSilence (u : RxUnit) (b : Bool) :
    (u.takeBit b).emitSilence = u.emitSilence := rfl
@[simp] theorem RxUnit.takeBit_state (u : RxUnit) (b : Bool) : (u.takeBit b).state = u.state := rfl
@[simp] theorem RxUnit.takeBit_eos (u : RxUnit) (b : Bool) : (u.takeBit b).eos = u.eos := rfl
@[simp] theorem RxUnit.takeBit_ovf (u : RxUnit) (b : Bool) : (u.takeBit b).ovf = u.ovf := rfl
@[simp] theorem RxUnit.takeBit_rxdState (u : RxUnit) (b : Bool) : (u.takeBit b).rxdState = u.rxdState := rfl
@[simp] theorem RxUnit.takeBit_rxdCount (u : RxUnit) (b : Bool) :
    (u.takeBit b).rxdCount = u.rxdCount + 1#4 := rfl
@[simp] theorem RxUnit.takeBit_rxdShift (u : RxUnit) (b : Bool) :
    (u.takeBit b).rxdShift = putBit u.rxdShift u.rxdCount.toNat b := rfl
@[simp] theorem RxUnit.takeBit_rxd (u : RxUnit) (b : Bool) : (u.takeBit b).rxd = u.rxd := rfl

/-! ## Updates of the transmit unit -/

@[simp] theorem TxUnit.opened_active (bd : Boundary) (m : List Byte) (u : TxUnit) :
    (u.opened bd m).active = true := by cases bd <;> rfl
@[simp] theorem TxUnit.opened_byteCount (bd : Boundary) (m : List Byte) (u : TxUnit) :
    (u.opened bd m).byteCount = m.length := by cases bd <;> rfl
@[simp] theorem TxUnit.opened_byteCursor (bd : Boundary) (m : List Byte) (u : TxUnit) :
    (u.opened bd m).byteCursor = 0 := by cases bd <;> rfl
@[simp] theorem TxUnit.opened_bitPhase (bd : Boundary) (m : List Byte) (u : TxUnit) :
    (u.opened bd m).bitPhase = 0#4 := by cases bd <;> rfl

@[simp] theorem TxUnit.advance_active (u : TxUnit) : u.advance.active = u.active := by
  unfold TxUnit.advance; split <;> rfl
@[simp] theorem TxUnit.advance_byteCount (u : TxUnit) : u.advance.byteCount = u.byteCount := by
  unfold TxUnit.advance; split <;> rfl
@[simp] theorem TxUnit.advance_txs (u : TxUnit) : u.advance.txs = u.txs := by
  unfold TxUnit.advance; split <;> rfl
@[simp] theorem TxUnit.advance_draws (u : TxUnit) : u.advance.draws = u.draws := by
  unfold TxUnit.advance; split <;> rfl

end Sys2Proof.Machine
end

