-- ==== Sys2Proof/Laws/Ops.lean ====
section
/-! SUPPORT. One lemma for each shared operation that says once everything it can do; proofs cite these and do not unfold the
operation. -/

namespace Sys2Proof.Machine

/-- What a TX operation that goes on has done to the state. -/
theorem finishTx_next {s t : State} {o : TxResult} (h : finishTx s o = .next t) :
    ∃ u r, o = .ok (u, r) ∧ t = s.endTx u r := by
  match o, h with
  | .ok (u, r), h => exact ⟨u, r, rfl, by simpa [finishTx] using h.symm⟩
  | .error f, h => simp [finishTx] at h

/-- What an RX operation that goes on has done to the state. -/
theorem finishRx_next {s t : State} {o : RxResult} (h : finishRx s o = .next t) :
    ∃ u r, o = .ok (u, r) ∧ t = s.endRx u r := by
  match o, h with
  | .ok (u, r), h => exact ⟨u, r, rfl, by simpa [finishRx] using h.symm⟩
  | .error f, h => simp [finishRx] at h

/-- A per-session TX operation that goes on: turned away, or its own body. -/
theorem inTxSession_cases {tx u : TxUnit} {x : Word} {vs : List Value} {body : TxResult} {r : Response}
    (h : inTxSession tx x vs body = .ok (u, r)) :
    (tx.active = false ∧ u = tx ∧ r = raise .noSession (x.setWidth 40) vs []) ∨
      (tx.active = true ∧ body = .ok (u, r)) := by
  unfold inTxSession at h
  split at h
  · exact .inr ⟨‹_›, h⟩
  · simp only [Except.ok.injEq, Prod.mk.injEq] at h
    exact .inl ⟨by simpa using ‹¬ tx.active = true›, h.1.symm, h.2.symm⟩

/-- A per-session RX operation that goes on: turned away, or its own body. -/
theorem inRxSession_cases {rx u : RxUnit} {x : Word} {body : RxResult} {r : Response}
    (h : inRxSession rx x body = .ok (u, r)) :
    (rx.active = false ∧ u = rx ∧ r = raise .noSession (x.setWidth 40) [] []) ∨
      (rx.active = true ∧ body = .ok (u, r)) := by
  unfold inRxSession at h
  split at h
  · exact .inr ⟨‹_›, h⟩
  · simp only [Except.ok.injEq, Prod.mk.injEq] at h
    exact .inl ⟨by simpa using ‹¬ rx.active = true›, h.1.symm, h.2.symm⟩

/-- Everything the byte intake can do (R132). -/
theorem intake_cases {b : Byte} {rx u : RxUnit} {r : Response} (h : intake b rx = .ok (u, r)) :
    (rx.eos = true ∧ u = rx ∧ r = raise .streamEnded (b.setWidth 40) [] []) ∨
    (rx.eos = false ∧ rx.capacity ≤ rx.writeCursor ∧ u = rx.overflow ∧
      r = raise .bufferOverflow (b.setWidth 40) [] []) ∨
    (rx.eos = false ∧ rx.writeCursor < rx.capacity ∧
      rx.writeCursor.toNat < Config.rxMaxCapacity ∧ u = rx.store b ∧ r = answer [] []) := by
  unfold intake at h
  split at h
  · simp only [Except.ok.injEq, Prod.mk.injEq] at h
    exact .inl ⟨‹_›, h.1.symm, h.2.symm⟩
  · have he : rx.eos = false := by simpa using ‹¬ rx.eos = true›
    split at h
    · simp only [Except.ok.injEq, Prod.mk.injEq] at h
      exact .inr (.inl ⟨he, ‹_›, h.1.symm, h.2.symm⟩)
    · split at h
      · simp only [Except.ok.injEq, Prod.mk.injEq] at h
        exact .inr (.inr ⟨he, BitVec.not_le.1 ‹_›, ‹_›, h.1.symm, h.2.symm⟩)
      · simp at h

/-- The intake faults only on an index that does not exist (R50). -/
theorem intake_error {b : Byte} {rx : RxUnit} {f : Fault} (h : intake b rx = .error f) :
    rx.eos = false ∧ rx.writeCursor < rx.capacity ∧
      Config.rxMaxCapacity ≤ rx.writeCursor.toNat ∧ f = .rxdIndexAbsent rx.writeCursor.toNat := by
  unfold intake at h
  split at h
  · simp at h
  · split at h
    · simp at h
    · split at h
      · simp at h
      · simp only [Except.error.injEq] at h
        exact ⟨by simpa using ‹¬ rx.eos = true›, BitVec.not_le.1 ‹_›, by omega, h.symm⟩

/-- Everything the status handler can do to the unit (R160, R161). -/
theorem applyStatus_cases (p : Params) (code : Word) (rx : RxUnit) :
    applyStatus p code rx = rx ∨
    (rx.state ≠ .streamEnded ∧ code = Config.sigCarrierLost ∧ rx.cont = false ∧
      applyStatus p code rx = { rx.toHunt with state := .streamEnded, eos := true }) ∨
    (rx.state ≠ .streamEnded ∧ code = Config.sigCarrierLost ∧ rx.cont = true ∧
      applyStatus p code rx = { rx.toHunt with state := .carrierLost }) ∨
    (rx.state ≠ .streamEnded ∧ code ≠ Config.sigCarrierLost ∧ code = p.sigCarrierUp ∧
      applyStatus p code rx = { rx with state := .carrierPresent }) := by
  unfold applyStatus RxUnit.loseCarrier
  by_cases h1 : rx.state = .streamEnded
  · simp [h1]
  · by_cases h2 : code = Config.sigCarrierLost
    · cases hc : rx.cont
      · exact .inr (.inl ⟨h1, h2, rfl, by simp [h1, h2]⟩)
      · exact .inr (.inr (.inl ⟨h1, h2, rfl, by simp [h1, h2]⟩))
    · by_cases h3 : code = p.sigCarrierUp
      · refine .inr (.inr (.inr ⟨h1, h2, h3, ?_⟩))
        rw [if_neg h1, if_neg h2, if_pos h3]
      · simp [h1, h2, h3]

/-- The move to the next frame position, for the positions R24 allows. -/
theorem TxUnit.advance_eq (u : TxUnit) (h : u.bitPhase.toNat ≤ 9) :
    u.advance = { u with
      bitPhase := BitVec.ofNat 4 ((u.bitPhase.toNat + 1) % 10)
      byteCursor := u.byteCursor + (u.bitPhase.toNat + 1) / 10 } := by
  by_cases h9 : u.bitPhase.toNat = 9
  · have hp : u.bitPhase = 9#4 := BitVec.eq_of_toNat_eq h9
    simp [TxUnit.advance, hp]
  · have hlt : u.bitPhase.toNat + 1 < 10 := by omega
    have hne : u.bitPhase + 1#4 ≠ 10#4 := by bv_omega
    have hp : u.bitPhase + 1#4 = BitVec.ofNat 4 (u.bitPhase.toNat + 1) := by
      apply BitVec.eq_of_toNat_eq
      simp [BitVec.toNat_add]
    have hd : (u.bitPhase.toNat + 1) / 10 = 0 := Nat.div_eq_of_lt hlt
    rw [TxUnit.advance, if_neg hne, hp, Nat.mod_eq_of_lt hlt, hd]
    rfl

/-- A data symbol stores its low byte (R73). -/
theorem symbolByte_eq (v : Word) : symbolByte v = v.extractLsb' 0 8 := by
  apply BitVec.eq_of_toNat_eq
  simp only [symbolByte, BitVec.toNat_setWidth, BitVec.toNat_and, BitVec.toNat_ofNat,
    BitVec.extractLsb'_toNat, Nat.shiftRight_zero]
  rw [show 255 % 2 ^ 32 = 2 ^ 8 - 1 by decide, Nat.and_two_pow_sub_one_eq_mod, Nat.mod_mod]

/-- The mask of R72 picks the bit of R70. -/
theorem maskedBit_eq_frameBit (b : Byte) {p : Nat} (h1 : 1 ≤ p) (h8 : p ≤ 8) :
    maskedBit b p = frameBit b p := by
  have h0 : p ≠ 0 := by omega
  have h9 : p ≠ 9 := by omega
  simp only [maskedBit, frameBit, h0, h9, if_false]
  rw [Bool.eq_iff_iff, decide_eq_true_iff]
  have key : ∀ i, (b &&& (1#8 <<< (p - 1))).getLsbD i = (b.getLsbD i && decide (i = p - 1)) := by
    intro i
    by_cases hi : i = p - 1
    · subst hi
      simp; omega
    · rcases Nat.lt_or_ge i (p - 1) with hl | hl
      · simp [hi, hl]
      · have : i - (p - 1) ≠ 0 := by omega
        simp [hi, this]
  constructor
  · intro hne
    by_contra hb
    refine hne (BitVec.eq_of_getLsbD_eq fun i hi => ?_)
    rw [key]
    by_cases hi : i = p - 1
    · subst hi; simpa using hb
    · simp [hi]
  · intro hb he
    have := key (p - 1)
    rw [he, hb] at this
    simp at this

/-- `v[i] <- b` changes bit i alone. -/
theorem getLsbD_putBit (v : Byte) (i : Nat) (b : Bool) (hi : i < 8) (j : Nat) :
    (putBit v i b).getLsbD j = if j = i then b else v.getLsbD j := by
  by_cases hj : j < 8
  · unfold putBit
    by_cases e : j = i
    · subst e
      cases b <;> simp [hi]
    · rcases Nat.lt_or_ge j i with hl | hl
      · cases b <;> simp [e, hl, hj]
      · have : j - i ≠ 0 := by omega
        cases b <;> simp [e, this, hj]
  · have e : j ≠ i := by omega
    rw [BitVec.getLsbD_of_ge _ _ (by omega), if_neg e, BitVec.getLsbD_of_ge _ _ (by omega)]

end Sys2Proof.Machine
end

