-- ==== Sys2Proof/Laws/Exec.lean ====
section
/-! SUPPORT. What an operation that goes on can have done, said once for each unit; invariants and whole-machine rules follow
from these by cases. -/

namespace Sys2Proof.Machine

/-- Everything one line bit can do inside a session (R181). -/
theorem lineBit_cases {b : Bool} {rx u : RxUnit} {r : Response} (h : lineBit b rx = .ok (u, r)) :
    (rx.rxdState = .hunt ∧ b = true ∧ u = rx ∧ r = answer [] []) ∨
    (rx.rxdState = .hunt ∧ b = false ∧ u = rx.startFrame ∧ r = answer [] []) ∨
    (rx.rxdState = .data ∧ rx.rxdCount < 8#4 ∧ u = rx.takeBit b ∧ r = answer [] []) ∨
    (rx.rxdState = .data ∧ 8#4 ≤ rx.rxdCount ∧ b = true ∧ intake rx.rxdShift rx.toHunt = .ok (u, r)) ∨
    (rx.rxdState = .data ∧ 8#4 ≤ rx.rxdCount ∧ b = false ∧ u = rx.toHunt ∧
      r = answer [] [.framingError rx.rxdShift]) := by
  unfold lineBit judgeStopBit at h
  cases hs : rx.rxdState with
  | hunt =>
    cases b <;> simp only [hs, if_true, Bool.false_eq_true, if_false, Except.ok.injEq, Prod.mk.injEq] at h
    · exact .inr (.inl ⟨rfl, rfl, h.1.symm, h.2.symm⟩)
    · exact .inl ⟨rfl, rfl, h.1.symm, h.2.symm⟩
  | data =>
    by_cases hc : rx.rxdCount < 8#4
    · simp only [hs, hc, if_true, Except.ok.injEq, Prod.mk.injEq] at h
      exact .inr (.inr (.inl ⟨rfl, hc, h.1.symm, h.2.symm⟩))
    · have hc' := BitVec.not_lt.1 hc
      cases b
      · simp only [hs, hc, if_false, Bool.false_eq_true, Except.ok.injEq, Prod.mk.injEq] at h
        exact .inr (.inr (.inr (.inr ⟨rfl, hc', rfl, h.1.symm, h.2.symm⟩)))
      · simp only [hs, hc, if_false, if_true] at h
        exact .inr (.inr (.inr (.inl ⟨rfl, hc', rfl, h⟩)))

/-- The ways an RX operation can end: the unit and the response, and which rule made them. -/
inductive RxEnds (p : Params) (rx : RxUnit) : Instr → RxUnit → Response → Prop where
  /-- RX_RDSR reads (R135). -/
  | rdsr : RxEnds p rx .rxRdsr rx
      (answer [.word (rxsr0 rx), .word (rxsr1 rx), .word (rxsr2 rx)] [])
  /-- RX_OPEN while a session exists (R130). -/
  | busy (c e : Bool) (k : BitVec 30) : rx.active = true →
      RxEnds p rx (.rxOpen c e k) rx (raise .busy ((openOperand c e k).setWidth 40) [] [])
  /-- RX_OPEN with too large a capacity (R130). -/
  | tooLarge (c e : Bool) (k : BitVec 30) : rx.active = false →
      Config.rxMaxCapacity < requestedCapacity k →
      RxEnds p rx (.rxOpen c e k) rx (raise .invalidInput (k.setWidth 40) [] [])
  /-- RX_OPEN begins a session (R130). -/
  | opened (c e : Bool) (k : BitVec 30) : rx.active = false →
      requestedCapacity k ≤ Config.rxMaxCapacity →
      RxEnds p rx (.rxOpen c e k) (rx.opened c e (requestedCapacity k)) (answer [] [])
  /-- an operation without a session (R201). -/
  | noSession (i : Instr) (x : Word) : rx.active = false → isTxOp i = false →
      (∀ c e k, i ≠ .rxOpen c e k) →
      RxEnds p rx i rx (raise .noSession (x.setWidth 40) [] [])
  /-- RX_ACCEPT of a status code (R131). -/
  | acceptStatus (v : Word) : rx.active = true → v.toInt < 0 →
      RxEnds p rx (.rxAccept v) (applyStatus p v rx) (answer [] [.status v])
  /-- RX_ACCEPT of data (R131, R132). -/
  | acceptData (v : Word) (u : RxUnit) (r : Response) : rx.active = true → 0 ≤ v.toInt →
      intake (symbolByte v) rx = .ok (u, r) → RxEnds p rx (.rxAccept v) u r
  /-- RX_EVENT (R163). -/
  | event (code : Word) : rx.active = true →
      RxEnds p rx (.rxEvent code) (applyStatus p code rx) (answer [] [.status code])
  /-- RX_LINEBIT (R181). -/
  | lineBit (b : Bool) (u : RxUnit) (r : Response) : rx.active = true →
      lineBit b rx = .ok (u, r) → RxEnds p rx (.rxLinebit b) u r
  /-- RX_RESULT (R133). -/
  | result (bs : List Byte) : rx.active = true → readRxd rx rx.writeCursor.toNat = .ok bs →
      RxEnds p rx .rxResult rx (answer (.word (rx.writeCursor.setWidth 32) :: bs.map .byte) [])
  /-- RX_CLOSE (R134). -/
  | closed : rx.active = true → RxEnds p rx .rxClose RxUnit.closed (answer [] [])

/-- An RX operation that goes on ends in one of those ways. -/
theorem exec_rx_ends {i : Instr} {s t : State} (hi : isTxOp i = false) (h : exec i s = .next t) :
    ∃ u r, t = s.endRx u r ∧ RxEnds s.params s.rx i u r := by
  cases i with
  | txOpen m => simp [isTxOp] at hi
  | txNextBit => simp [isTxOp] at hi
  | txClose => simp [isTxOp] at hi
  | txRdsr => simp [isTxOp] at hi
  | rxOpen c e k =>
    obtain ⟨u, r, ho, rfl⟩ := finishRx_next h
    refine ⟨u, r, rfl, ?_⟩
    unfold rxOpen at ho
    split at ho
    · simp only [Except.ok.injEq, Prod.mk.injEq] at ho
      obtain ⟨rfl, rfl⟩ := ho
      exact .busy c e k ‹_›
    · have ha : s.rx.active = false := by simpa using ‹¬ s.rx.active = true›
      split at ho <;> simp only [Except.ok.injEq, Prod.mk.injEq] at ho <;> obtain ⟨rfl, rfl⟩ := ho
      · exact .tooLarge c e k ha ‹_›
      · exact .opened c e k ha (Nat.not_lt.1 ‹_›)
  | rxAccept v =>
    obtain ⟨u, r, ho, rfl⟩ := finishRx_next h
    refine ⟨u, r, rfl, ?_⟩
    rcases inRxSession_cases ho with ⟨ha, rfl, rfl⟩ | ⟨ha, hb⟩
    · exact .noSession _ _ ha rfl (by simp)
    · split at hb
      · rename_i hs
        simp only [statusHandler, Except.ok.injEq, Prod.mk.injEq] at hb
        obtain ⟨rfl, rfl⟩ := hb
        exact .acceptStatus v ha (by simpa [isStatusCode] using hs)
      · rename_i hs
        exact .acceptData v u r ha (by simpa [isStatusCode] using hs) hb
  | rxEvent code =>
    obtain ⟨u, r, ho, rfl⟩ := finishRx_next h
    refine ⟨u, r, rfl, ?_⟩
    rcases inRxSession_cases ho with ⟨ha, rfl, rfl⟩ | ⟨ha, hb⟩
    · exact .noSession _ _ ha rfl (by simp)
    · simp only [statusHandler, Except.ok.injEq, Prod.mk.injEq] at hb
      obtain ⟨rfl, rfl⟩ := hb
      exact .event code ha
  | rxLinebit b =>
    obtain ⟨u, r, ho, rfl⟩ := finishRx_next h
    refine ⟨u, r, rfl, ?_⟩
    rcases inRxSession_cases ho with ⟨ha, rfl, rfl⟩ | ⟨ha, hb⟩
    · exact .noSession _ _ ha rfl (by simp)
    · exact .lineBit b u r ha hb
  | rxResult =>
    obtain ⟨u, r, ho, rfl⟩ := finishRx_next h
    refine ⟨u, r, rfl, ?_⟩
    rcases inRxSession_cases ho with ⟨ha, rfl, rfl⟩ | ⟨ha, hb⟩
    · exact .noSession _ _ ha rfl (by simp)
    · cases hr : readRxd s.rx s.rx.writeCursor.toNat with
      | error f => simp [hr, Except.map] at hb
      | ok bs =>
        simp only [hr, Except.map, Except.ok.injEq, Prod.mk.injEq] at hb
        obtain ⟨rfl, rfl⟩ := hb
        exact .result bs ha hr
  | rxClose =>
    obtain ⟨u, r, ho, rfl⟩ := finishRx_next h
    refine ⟨u, r, rfl, ?_⟩
    rcases inRxSession_cases ho with ⟨ha, rfl, rfl⟩ | ⟨ha, hb⟩
    · exact .noSession _ _ ha rfl (by simp)
    · simp only [Except.ok.injEq, Prod.mk.injEq] at hb
      obtain ⟨rfl, rfl⟩ := hb
      exact .closed ha
  | rxRdsr =>
    obtain ⟨u, r, ho, rfl⟩ := finishRx_next (o := rxRdsr s.rx) h
    refine ⟨u, r, rfl, ?_⟩
    simp only [rxRdsr, Except.ok.injEq, Prod.mk.injEq] at ho
    obtain ⟨rfl, rfl⟩ := ho
    exact .rdsr

/-- The ways a TX operation can end. -/
inductive TxEnds (p : Params) (tx : TxUnit) : Instr → TxUnit → Response → Prop where
  /-- TX_RDSR reads (R103). -/
  | rdsr : TxEnds p tx .txRdsr tx
      (answer [.word (txsr0 p.boundary tx), .word (txsr1 tx), .word (txsr2 tx)] [])
  /-- TX_OPEN while a session exists (R100). -/
  | busy (m : List Byte) : tx.active = true →
      TxEnds p tx (.txOpen m) tx (raise .busy (BitVec.ofNat 40 m.length) [] [])
  /-- TX_OPEN with an empty or too long message (R100). -/
  | badLength (m : List Byte) : tx.active = false → (m.length = 0 ∨ p.txMaxLen < m.length) →
      TxEnds p tx (.txOpen m) tx (raise .invalidInput (BitVec.ofNat 40 m.length) [] [])
  /-- TX_OPEN begins a session (R100). -/
  | opened (m : List Byte) : tx.active = false → 1 ≤ m.length → m.length ≤ p.txMaxLen →
      TxEnds p tx (.txOpen m) (tx.opened p.boundary m) (answer [] [])
  /-- TX_NEXT_BIT without a session (R101). -/
  | idleNoSession : tx.active = false →
      TxEnds p tx .txNextBit tx (raise .noSession 0#40 [.bit true] [])
  /-- TX_NEXT_BIT once the message is exhausted (R101). -/
  | idleDone : tx.active = true → framing p.boundary tx = false →
      TxEnds p tx .txNextBit tx (answer [.bit true] [])
  /-- TX_NEXT_BIT sends a frame bit (R101). -/
  | sent (b : Bool) : tx.active = true → framing p.boundary tx = true →
      currentBit p tx = .ok b → TxEnds p tx .txNextBit tx.advance (answer [.bit b] [])
  /-- TX_CLOSE without a session (R102). -/
  | closeNoSession : tx.active = false → TxEnds p tx .txClose tx (raise .noSession 0#40 [] [])
  /-- TX_CLOSE (R102). -/
  | closed : tx.active = true → TxEnds p tx .txClose tx.closed (answer [] [])

/-- A TX operation that goes on ends in one of those ways. -/
theorem exec_tx_ends {i : Instr} {s t : State} (hi : isTxOp i = true) (h : exec i s = .next t) :
    ∃ u r, t = s.endTx u r ∧ TxEnds s.params s.tx i u r := by
  cases i with
  | txOpen m =>
    obtain ⟨u, r, ho, rfl⟩ := finishTx_next h
    refine ⟨u, r, rfl, ?_⟩
    unfold txOpen at ho
    split at ho
    · simp only [Except.ok.injEq, Prod.mk.injEq] at ho
      obtain ⟨rfl, rfl⟩ := ho
      exact .busy m ‹_›
    · have ha : s.tx.active = false := by simpa using ‹¬ s.tx.active = true›
      split at ho <;> simp only [Except.ok.injEq, Prod.mk.injEq] at ho <;> obtain ⟨rfl, rfl⟩ := ho
      · exact .badLength m ha ‹_›
      · exact .opened m ha (by omega) (by omega)
  | txNextBit =>
    obtain ⟨u, r, ho, rfl⟩ := finishTx_next h
    refine ⟨u, r, rfl, ?_⟩
    rcases inTxSession_cases ho with ⟨ha, rfl, rfl⟩ | ⟨ha, hb⟩
    · exact .idleNoSession ha
    · cases hf : framing s.params.boundary s.tx with
      | false =>
        simp only [hf, Bool.false_eq_true, if_false, Except.ok.injEq, Prod.mk.injEq] at hb
        obtain ⟨rfl, rfl⟩ := hb
        exact .idleDone ha hf
      | true =>
        simp only [hf, if_true, sendBit] at hb
        cases hc : currentBit s.params s.tx with
        | error f => simp [hc, Except.map] at hb
        | ok b =>
          simp only [hc, Except.map, Except.ok.injEq, Prod.mk.injEq] at hb
          obtain ⟨rfl, rfl⟩ := hb
          exact .sent b ha hf hc
  | txClose =>
    obtain ⟨u, r, ho, rfl⟩ := finishTx_next h
    refine ⟨u, r, rfl, ?_⟩
    rcases inTxSession_cases ho with ⟨ha, rfl, rfl⟩ | ⟨ha, hb⟩
    · exact .closeNoSession ha
    · simp only [Except.ok.injEq, Prod.mk.injEq] at hb
      obtain ⟨rfl, rfl⟩ := hb
      exact .closed ha
  | txRdsr =>
    obtain ⟨u, r, ho, rfl⟩ := finishTx_next (o := txRdsr s.params s.tx) h
    refine ⟨u, r, rfl, ?_⟩
    simp only [txRdsr, Except.ok.injEq, Prod.mk.injEq] at ho
    obtain ⟨rfl, rfl⟩ := ho
    exact .rdsr
  | rxOpen c e k => simp [isTxOp] at hi
  | rxAccept v => simp [isTxOp] at hi
  | rxEvent code => simp [isTxOp] at hi
  | rxLinebit b => simp [isTxOp] at hi
  | rxResult => simp [isTxOp] at hi
  | rxClose => simp [isTxOp] at hi
  | rxRdsr => simp [isTxOp] at hi

/-- What an operation that goes on has done, for either unit. -/
theorem exec_ends {i : Instr} {s t : State} (h : exec i s = .next t) :
    (isTxOp i = true ∧ ∃ u r, t = s.endTx u r ∧ TxEnds s.params s.tx i u r) ∨
      (isTxOp i = false ∧ ∃ u r, t = s.endRx u r ∧ RxEnds s.params s.rx i u r) := by
  cases hi : isTxOp i with
  | true => exact .inl ⟨rfl, exec_tx_ends hi h⟩
  | false => exact .inr ⟨rfl, exec_rx_ends hi h⟩

end Sys2Proof.Machine
end

