-- ==== Sys2Proof/Laws/PerInstr.lean ====
section
/-! SUPPORT. A family of statements made per operation: the two fields of its command word (30_encoding.md R75, R77). -/

namespace Sys2Proof.Laws.CommandFields

/-- The opcode field holds the operation's opcode and the operand field its operand. -/
def Statement (i : Instr) : Prop :=
  opcodeOf (encodeWord i) = opcodeBits i ∧ operandOf (encodeWord i) = operandBits i

theorem txOpen (m : List Byte) : Statement (.txOpen m) :=
  ⟨opcodeOf_encodeWord _, operandOf_encodeWord _⟩

theorem txNextBit : Statement .txNextBit := ⟨opcodeOf_encodeWord _, operandOf_encodeWord _⟩

theorem txClose : Statement .txClose := ⟨opcodeOf_encodeWord _, operandOf_encodeWord _⟩

theorem txRdsr : Statement .txRdsr := ⟨opcodeOf_encodeWord _, operandOf_encodeWord _⟩

theorem rxOpen (cont silence : Bool) (cap : BitVec 30) : Statement (.rxOpen cont silence cap) :=
  ⟨opcodeOf_encodeWord _, operandOf_encodeWord _⟩

theorem rxAccept (v : Word) : Statement (.rxAccept v) :=
  ⟨opcodeOf_encodeWord _, operandOf_encodeWord _⟩

theorem rxEvent (code : Word) : Statement (.rxEvent code) :=
  ⟨opcodeOf_encodeWord _, operandOf_encodeWord _⟩

theorem rxLinebit (b : Bool) : Statement (.rxLinebit b) :=
  ⟨opcodeOf_encodeWord _, operandOf_encodeWord _⟩

theorem rxResult : Statement .rxResult := ⟨opcodeOf_encodeWord _, operandOf_encodeWord _⟩

theorem rxClose : Statement .rxClose := ⟨opcodeOf_encodeWord _, operandOf_encodeWord _⟩

theorem rxRdsr : Statement .rxRdsr := ⟨opcodeOf_encodeWord _, operandOf_encodeWord _⟩

end Sys2Proof.Laws.CommandFields
end

