-- ==== Sys2Proof/Laws/Runs.lean ====
section
/-! SUPPORT. Lemmas about runs of several operations and about the line bits they carry. -/

namespace Sys2Proof.Machine

/-- Running two lists of operations one after the other. -/
theorem execAll_append (a b : List Instr) (s : State) :
    execAll (a ++ b) s = andThen (execAll a s) (execAll b) := by
  induction a generalizing s with
  | nil => rfl
  | cons i a ih =>
    simp only [List.cons_append, execAll]
    cases exec i s with
    | next t => exact ih t
    | fault f => rfl
    | refused r => rfl

/-- The framing test is R27's. -/
theorem framing_iff_FramingHolds (s : State) :
    framing s.params.boundary s.tx = true ↔ FramingHolds s := by
  unfold framing FramingHolds
  cases s.params.boundary <;> simp

/-- In a session RX_LINEBIT is the deframer's step. -/
theorem exec_rxLinebit_active (b : Bool) {s : State} (ha : s.rx.active = true) :
    exec (.rxLinebit b) s = finishRx s (lineBit b s.rx) := by
  simp [exec, execRxLinebit, rxLinebit, inRxSession, ha]

theorem bitsOf_append (a b : List Response) : bitsOf (a ++ b) = bitsOf a ++ bitsOf b := by
  induction a with
  | nil => rfl
  | cons r rs ih => simp only [List.cons_append, bitsOf]; split <;> simp [ih]

theorem bitsOf_bitResponses (f : Nat → Bool) (l : List Nat) :
    bitsOf (l.map fun i => bitResponse (f i)) = l.map f := by
  induction l with
  | nil => rfl
  | cons a l ih => simp only [List.map_cons, bitsOf, bitResponse] at ih ⊢; rw [ih]

/-- A message of n bytes is 10n line bits (R104). -/
theorem lineBits_length (m : List Byte) : (lineBits m).length = 10 * m.length := by
  induction m with
  | nil => rfl
  | cons b m ih => simp [lineBits, ih]; omega

/-- Line bit i of a message is bit i mod 10 of the frame of byte i / 10 (R104). -/
theorem lineBits_getElem? (m : List Byte) {i : Nat} (h : i < 10 * m.length) :
    (lineBits m)[i]? = some (frameBit (m.getD (i / 10) 0#8) (i % 10)) := by
  induction m generalizing i with
  | nil => simp at h
  | cons b m ih =>
    simp only [List.length_cons] at h
    by_cases hi : i < 10
    · have e : i / 10 = 0 := by omega
      rw [lineBits, List.getElem?_append_left (by simpa using hi)]
      simp [hi, e, Nat.mod_eq_of_lt hi]
    · have e : i / 10 = (i - 10) / 10 + 1 := by omega
      have e2 : (i - 10) % 10 = i % 10 := by omega
      rw [lineBits, List.getElem?_append_right (by simp; omega)]
      simp only [List.length_map, List.length_range]
      rw [ih (by omega), e, e2]
      rfl

end Sys2Proof.Machine
end

