-- ==== Sys2Proof/Laws/StatusWords.lean ====
section
/-! SUPPORT. The bits of the two packed status words (10_state.md R36, R37), one lemma each, so that no proof works on the
concatenation itself. -/

namespace Sys2Proof.Machine

/-- The bits of TXSR0. -/
theorem getLsbD_txsr0 (bd : Boundary) (u : TxUnit) (i : Nat) :
    (txsr0 bd u).getLsbD i =
      if i < 1 then u.active
      else if i < 2 then u.done bd
      else if i < 4 then false
      else if i < 8 then u.bitPhase.getLsbD (i - 4)
      else false := by
  have key : (txsr0 bd u).getLsbD i = BitVec.getLsbD (w := 24 + 4 + 2 + 1 + 1)
      (0#24 ++ u.bitPhase ++ 0#2 ++ bit1 (u.done bd) ++ bit1 u.active) i := rfl
  rw [key]
  simp only [BitVec.getLsbD_append, bit1, BitVec.getLsbD_ofBool, BitVec.getLsbD_zero]
  grind

/-- The bits of RXSR0. -/
theorem getLsbD_rxsr0 (u : RxUnit) (i : Nat) :
    (rxsr0 u).getLsbD i =
      if i < 1 then u.active
      else if i < 2 then u.eos
      else if i < 3 then u.ovf
      else if i < 4 then false
      else if i < 6 then u.state.code.getLsbD (i - 4)
      else if i < 8 then false
      else if i < 9 then u.cont
      else if i < 10 then u.emitSilence
      else if i < 12 then false
      else if i < 13 then u.rxdState.code.getLsbD (i - 12)
      else if i < 16 then false
      else if i < 20 then u.rxdCount.getLsbD (i - 16)
      else false := by
  have key : (rxsr0 u).getLsbD i =
      BitVec.getLsbD (w := 12 + 4 + 3 + 1 + 2 + 1 + 1 + 2 + 2 + 1 + 1 + 1 + 1)
      (0#12 ++ u.rxdCount ++ 0#3 ++ u.rxdState.code ++ 0#2 ++ bit1 u.emitSilence ++ bit1 u.cont ++
        0#2 ++ u.state.code ++ 0#1 ++ bit1 u.ovf ++ bit1 u.eos ++ bit1 u.active) i := rfl
  rw [key]
  simp only [BitVec.getLsbD_append, bit1, BitVec.getLsbD_ofBool, BitVec.getLsbD_zero]
  repeat' refine ite_congr (propext (by omega)) (fun _ => ?_) (fun _ => ?_)
  all_goals first
    | rfl
    | (simp only [Bool.and_eq_right_iff_imp, decide_eq_true_eq]; omega)

end Sys2Proof.Machine
end

