-- ==== Sys2Proof/Tests/Slice0.lean ====
section
/-! SUPPORT. Tests whose expected results are the vectors of 95_test_vectors.md or the tables of 30_encoding.md, and for every
obligation with hypotheses a witness: a concrete state and operands that meet them together, clause by clause. -/

namespace Sys2Proof.Tests

open Sys2Proof Sys2Proof.Machine

/-! ## Helpers: small states -/

/-- The cells of a byte space that holds a message from index 0 on. -/
def cells (m : List Byte) : Memory := Memory.writeAll [] 0 m

/-- A core whose TX session sends `m` and stands at the given frame position; RX has no session. -/
def sending (m : List Byte) (cursor : Nat) (phase : BitVec 4) : State :=
  { State.reset with
    tx := { active := true, byteCount := m.length, byteCursor := cursor, bitPhase := phase,
            txs := cells m, draws := 0 } }

/-- A core whose RX session has the given CONTINUE and capacity and has taken the bytes `m`; TX has no session. -/
def receiving (cont : Bool) (cap : BitVec 17) (m : List Byte) : State :=
  { State.reset with
    rx := { RxUnit.reset with
            active := true, capacity := cap, cont := cont,
            writeCursor := BitVec.ofNat 17 m.length, rxd := cells m } }

/-- The same core with its deframer inside a frame. -/
def inFrame (s : State) (count : BitVec 4) (shift : Byte) : State :=
  { s with rx := { s.rx with rxdState := .data, rxdCount := count, rxdShift := shift } }

/-- The same core after the end of stream. -/
def ended (s : State) : State := { s with rx := { s.rx with eos := true, state := .streamEnded } }

/-- The same core with a command stream. -/
def given (s : State) (items : List Item) : State := { s with commands := items }

/-- The same core under the REFERENCE boundary. -/
def reference (s : State) : State := { s with params := { s.params with boundary := .reference } }

/-- The state an outcome goes on with. -/
def next? : Host.Outcome State Fault Refusal → Option State
  | .next s => some s
  | .fault _ => none
  | .refused _ => none

/-- The responses after an outcome: those of the state it goes on with. -/
def responses (o : Host.Outcome State Fault Refusal) : List Response :=
  match next? o with
  | some s => s.responses
  | none => []

/-- What RX_RDSR's first word would be after an outcome. -/
def rxsr0After (o : Host.Outcome State Fault Refusal) : Option Word := (next? o).map fun s => rxsr0 s.rx

/-- The three TX status words after an outcome. -/
def txWords (o : Host.Outcome State Fault Refusal) : Option (Word × Word × Word) :=
  (next? o).map fun s => (txsr0 s.params.boundary s.tx, txsr1 s.tx, txsr2 s.tx)

/-- A response with OK and words. -/
def words (ws : List Word) : List Response := [⟨.ok, none, ws.map .word, []⟩]

/-! ## Well-formedness -/

/-- A message whose length does not fit format L's 32-bit n is refused (R76). -/
theorem test_wf_refuses_long_message :
    Instr.wf (.txOpen (List.replicate (2 ^ 32) 0#8)) = false := by
  simp only [Instr.wf, List.length_replicate, Nat.lt_irrefl, decide_false]

theorem test_wf_accepts_empty_message : Instr.wf (.txOpen []) = true := by decide

/-- A stream that breaks R79 is refused by the stream check. -/
theorem test_stream_check_refuses :
    streamOk 0 [.byte 1#8] = false ∧
    streamOk 0 [.word 0x0100000002#40, .byte 1#8, .word 0x0200000000#40] = false ∧
    streamOk 0 [.word 0x0100000002#40, .byte 1#8] = true := by decide

/-! ## Decoding: words written out from R75 to R79, R83 and R84 -/

theorem test_decode_txOpen :
    decode [.word 0x0100000002#40, .byte 0x48#8, .byte 0x49#8] =
      .instr (.txOpen [0x48#8, 0x49#8]) [] := by decide
theorem test_decode_txOpen_empty : decode [.word 0x0100000000#40] = .instr (.txOpen []) [] := by decide
theorem test_decode_txNextBit : decode [.word 0x0200000000#40] = .instr .txNextBit [] := by decide
theorem test_decode_txClose : decode [.word 0x0300000000#40] = .instr .txClose [] := by decide
theorem test_decode_txRdsr : decode [.word 0x0400000000#40] = .instr .txRdsr [] := by decide
/-- `RX_OPEN cont=1, cap=3` of program P3. -/
theorem test_decode_rxOpen :
    decode [.word 0x110000000D#40] = .instr (.rxOpen true false 3#30) [] := by decide
/-- `silence=1` alone, and the largest CAP field. -/
theorem test_decode_rxOpen_fields :
    decode [.word 0x1100000002#40] = .instr (.rxOpen false true 0#30) [] ∧
    decode [.word 0x11FFFFFFFC#40] = .instr (.rxOpen false false 0x3FFFFFFF#30) [] := by decide
theorem test_decode_rxAccept :
    decode [.word 0x12FFFFFFFF#40] = .instr (.rxAccept (-1)) [] := by decide
theorem test_decode_rxEvent :
    decode [.word 0x13FFFFFFFE#40] = .instr (.rxEvent (-2)) [] := by decide
theorem test_decode_rxLinebit :
    decode [.word 0x1400000000#40] = .instr (.rxLinebit false) [] ∧
    decode [.word 0x1400000001#40] = .instr (.rxLinebit true) [] := by decide
theorem test_decode_rxResult : decode [.word 0x1500000000#40] = .instr .rxResult [] := by decide
theorem test_decode_rxClose : decode [.word 0x1600000000#40] = .instr .rxClose [] := by decide
theorem test_decode_rxRdsr : decode [.word 0x1700000000#40] = .instr .rxRdsr [] := by decide

/-- EN-1 to EN-5. -/
theorem test_decode_illegal :
    decode [.word 0x0000000000#40] = .illegal 0x0000000000#40 [] ∧
    decode [.word 0x0500000000#40] = .illegal 0x0500000000#40 [] ∧
    decode [.word 0xFF00000000#40] = .illegal 0xFF00000000#40 [] ∧
    decode [.word 0x0200000001#40] = .illegal 0x0200000001#40 [] ∧
    decode [.word 0x1400000002#40] = .illegal 0x1400000002#40 [] := by decide

/-- The neighbours of the two opcode groups. -/
theorem test_decode_illegal_neighbours :
    decode [.word 0x1000000000#40] = .illegal 0x1000000000#40 [] ∧
    decode [.word 0x1800000000#40] = .illegal 0x1800000000#40 [] ∧
    decode [.word 0x9200000000#40] = .illegal 0x9200000000#40 [] ∧
    decode [.word 0x1480000000#40] = .illegal 0x1480000000#40 [] ∧
    decode [.word 0x1680000000#40] = .illegal 0x1680000000#40 [] := by decide

/-- The encoder's words are those of R84's examples in program P3 and EN. -/
theorem test_encode :
    encode (.txOpen [0x48#8, 0x49#8]) = [.word 0x0100000002#40, .byte 0x48#8, .byte 0x49#8] ∧
    encode (.rxOpen true false 3#30) = [.word 0x110000000D#40] ∧
    encode (.rxAccept (-1)) = [.word 0x12FFFFFFFF#40] ∧
    encode (.rxLinebit true) = [.word 0x1400000001#40] := by decide

/-- The rows (match, mask) of spec/opcode_table.json: no word matches two of them. -/
def opcodeRows : List (BitVec 40 × BitVec 40) :=
  [(0x0100000000#40, 0xFF00000000#40), (0x0200000000#40, 0xFFFFFFFFFF#40),
   (0x0300000000#40, 0xFFFFFFFFFF#40), (0x0400000000#40, 0xFFFFFFFFFF#40),
   (0x1100000000#40, 0xFF00000000#40), (0x1200000000#40, 0xFF00000000#40),
   (0x1300000000#40, 0xFF00000000#40), (0x1400000000#40, 0xFFFFFFFFFE#40),
   (0x1500000000#40, 0xFFFFFFFFFF#40), (0x1600000000#40, 0xFFFFFFFFFF#40),
   (0x1700000000#40, 0xFFFFFFFFFF#40)]

theorem test_opcode_rows_do_not_overlap :
    opcodeRows.Pairwise fun a b => (a.1 ^^^ b.1) &&& a.2 &&& b.2 ≠ 0#40 := by decide

/-- Every row's own word is read as a table word and run by the next step. -/
theorem test_table_words :
    opcodeRows.map (fun r => decodeTableWord 40 r.1.toNat) =
      [some (.txOpen []), some .txNextBit, some .txClose, some .txRdsr,
       some (.rxOpen false false 0#30), some (.rxAccept 0), some (.rxEvent 0),
       some (.rxLinebit false), some .rxResult, some .rxClose, some .rxRdsr] := by decide

theorem test_table_word_runs :
    responses (step (State.reset.withFetchWord 40 0x0200000000)) =
      [⟨.noSession, some 0#40, [.bit true], []⟩] := by decide

/-- A data phase above the table's bits is zeros. -/
theorem test_table_word_data :
    decodeTableWord 40 0x0100000002 = some (.txOpen [0#8, 0#8]) ∧
    decodeTableWord 56 0x49480100000002 = some (.txOpen [0x48#8, 0x49#8]) := by decide

/-! ## One step of each operation -/

/-- TX-7 (n = 0) and TX-8 (n = 17 with TX_MAX_LEN = 16): INVALID_INPUT, the data bytes consumed, no session. -/
theorem test_txOpen_invalid :
    responses (exec (.txOpen []) State.reset) = [⟨.invalidInput, some 0#40, [], []⟩] ∧
    (next? (step (given State.reset (encode (.txOpen (List.replicate 17 7#8)))))).map
      (fun s => (s.tx.active, s.commands)) = some (false, []) := by decide

/-- TX-11: BUSY keeps the session. -/
theorem test_txOpen_busy :
    responses (exec (.txOpen [0x42#8]) (sending [0x41#8] 0 0#4)) = [⟨.busy, some 1#40, [], []⟩] ∧
    txWords (exec (.txOpen [0x42#8]) (sending [0x41#8] 0 0#4)) = some (0x01, 0, 1) := by decide

/-- L1-1: the first frame of "HELLO" is 0,0,0,0,1,0,0,1,0,1. -/
theorem test_txNextBit_frame :
    ((List.range 10).map fun p =>
      responses (exec .txNextBit (sending [0x48#8, 0x45#8] 0 (BitVec.ofNat 4 p)))) =
    [false, false, false, false, true, false, false, true, false, true].map
      fun b => [bitResponse b] := by decide

/-- TX-14: the stop bit, then the next byte's phase 0; here the message is over, so TXSR0 shows DONE. -/
theorem test_txNextBit_stop :
    responses (exec .txNextBit (sending [0x41#8] 0 9#4)) = [bitResponse true] ∧
    txWords (exec .txNextBit (sending [0x41#8] 0 9#4)) = some (0x03, 1, 1) := by decide

/-- TX-15 and TX-10. -/
theorem test_txClose :
    txWords (exec .txClose (sending [0x41#8] 0 3#4)) = some (0, 0, 0) ∧
    responses (exec .txClose State.reset) = [⟨.noSession, some 0#40, [], []⟩] := by decide

/-- TX-12, TX-13 and, with no session, TX-10. -/
theorem test_txRdsr :
    responses (exec .txRdsr (sending [0x48#8, 0x49#8] 1 2#4)) = words [0x21, 1, 2] ∧
    responses (exec .txRdsr (sending [0x41#8] 0 9#4)) = words [0x91, 0, 1] ∧
    responses (exec .txRdsr State.reset) = words [0, 0, 0] := by decide

/-- RI-8: a capacity of 65537; RI-7: BUSY. -/
theorem test_rxOpen_errors :
    responses (exec (.rxOpen false false 65537#30) State.reset) =
      [⟨.invalidInput, some 65537#40, [], []⟩] ∧
    responses (exec (.rxOpen true false 0#30) (receiving false 65536#17 [])) =
      [⟨.busy, some 1#40, [], []⟩] := by decide

/-- RI-10: RXSR0 = 0x301, capacity 65536, the port driven. -/
theorem test_rxOpen_fields :
    (next? (exec (.rxOpen true true 0#30) State.reset)).map
      (fun s => (rxsr0 s.rx, rxsr1 s.rx, rxsr2 s.rx, emitSilencePort s)) =
      some (0x301, 0, 65536, true) := by decide

/-- RI-2, RI-3 and RI-5: the low byte of a symbol is stored. -/
theorem test_rxAccept_low_byte :
    ([0x141#32, 0x7FFFFFFF#32, 0x100#32].map fun v =>
      (next? (exec (.rxAccept v) (receiving false 65536#17 []))).map fun s => s.rx.rxd.read 0) =
    [some (some 0x41#8), some (some 0xFF#8), some (some 0x00#8)] := by decide

/-- L1-3 (capacity 1, the second byte): BUFFER_OVERFLOW, RXSR0 = 0x37; L1-2: a carrier-lost symbol, 0x33. -/
theorem test_rxAccept_overflow_and_status :
    rxsr0After (exec (.rxAccept 0x42) (receiving false 1#17 [0x41#8])) = some 0x37 ∧
    responses (exec (.rxAccept 0x42) (receiving false 1#17 [0x41#8])) =
      [⟨.bufferOverflow, some 0x42#40, [], []⟩] ∧
    rxsr0After (exec (.rxAccept (-1)) (receiving false 65536#17 [0x41#8])) = some 0x33 := by decide

/-- ST-1, ST-2, ST-3, ST-8, ST-9 (CONTINUE = 0). -/
theorem test_rxEvent_stop :
    ([-1, -2, -5, 5, 0x80000000#32].map fun c =>
      rxsr0After (exec (.rxEvent c) (receiving false 65536#17 []))) =
    [some 0x33, some 0x11, some 0x01, some 0x01, some 0x01] := by decide

/-- ST-10, ST-11, ST-12 (CONTINUE = 1), and DF-7: a frame in progress is dropped. -/
theorem test_rxEvent_continue :
    ([-1, -2, -5].map fun c => rxsr0After (exec (.rxEvent c) (receiving true 65536#17 []))) =
      [some 0x121, some 0x111, some 0x101] ∧
    rxsr0After (exec (.rxEvent (-1)) (inFrame (receiving true 65536#17 []) 4#4 1#8)) =
      some 0x121 := by decide

/-- DF-1, its tenth bit: the byte 0x41 is delivered; DF-5: the fifth bit leaves DATA with count 4 (0x41001). -/
theorem test_rxLinebit_data :
    (next? (exec (.rxLinebit true) (inFrame (receiving false 65536#17 []) 8#4 0x41#8))).map
      (fun s => (rxsr0 s.rx, s.rx.writeCursor, s.rx.rxd.read 0)) =
      some (0x01, 1#17, some 0x41#8) ∧
    rxsr0After (exec (.rxLinebit false) (inFrame (receiving false 65536#17 []) 3#4 0x01#8)) =
      some 0x41001 := by decide

/-- DF-3: a framing error; DF-8, its tenth bit: STREAM_ENDED, deframer back in HUNT (0x33). -/
theorem test_rxLinebit_errors :
    responses (exec (.rxLinebit false) (inFrame (receiving false 65536#17 []) 8#4 0x41#8)) =
      [⟨.ok, none, [], [.framingError 0x41#8]⟩] ∧
    rxsr0After (exec (.rxLinebit true) (inFrame (ended (receiving false 65536#17 [])) 8#4 0x42#8)) =
      some 0x33 ∧
    responses (exec (.rxLinebit false) State.reset) = [⟨.noSession, some 0#40, [], []⟩] := by decide

/-- RI-13: the result after three bytes; RI-11: an empty one. -/
theorem test_rxResult :
    responses (exec .rxResult (receiving true 65536#17 [0x41#8, 0x42#8, 0x43#8])) =
      [⟨.ok, none, [.word 3, .byte 0x41#8, .byte 0x42#8, .byte 0x43#8], []⟩] ∧
    responses (exec .rxResult (ended (receiving false 65536#17 []))) = words [0] := by decide

/-- RI-15: after RX_CLOSE every status word is 0. -/
theorem test_rxClose :
    (next? (exec .rxClose (receiving true 3#17 [0x41#8]))).map
      (fun s => (rxsr0 s.rx, rxsr1 s.rx, rxsr2 s.rx)) = some (0, 0, 0) := by decide

/-- EN-6, and L1-2's status words. -/
theorem test_rxRdsr :
    responses (exec .rxRdsr State.reset) = words [0, 0, 0] ∧
    responses (exec .rxRdsr (ended (receiving false 65536#17 [0x41#8]))) =
      words [0x33, 1, 0x10000] := by decide

/-- P5, rows 2 and 3: ILLEGAL_OP through the step. -/
theorem test_step_illegal :
    responses (step (given State.reset [.word 0x1400000002#40])) =
      [⟨.illegalOp, some 0x1400000002#40, [], []⟩] := by decide

/-- R231: a core with no command waits. -/
theorem test_step_waits : step State.reset = .next State.reset := rfl

/-! ## The textual form (R84, R85) -/

theorem test_text_tx :
    Assembler.program? defaultParams "TX_OPEN \"HI\" ; two" = some [.txOpen [0x48#8, 0x49#8]] := by decide
theorem test_text_bytes :
    Assembler.program? defaultParams "TX_OPEN 0x48, 73" = some [.txOpen [0x48#8, 0x49#8]] := by decide
theorem test_text_rxOpen :
    Assembler.program? defaultParams "RX_OPEN cont=1, cap=3" = some [.rxOpen true false 3#30] := by decide
theorem test_text_signed :
    Assembler.program? defaultParams "RX_ACCEPT -1\nRX_RDSR" = some [.rxAccept (-1), .rxRdsr] := by decide
theorem test_text_pseudo :
    Assembler.program? defaultParams "TX_BITS 2\nRX_LINEBITS 0,1" =
      some [.txNextBit, .txNextBit, .rxLinebit false, .rxLinebit true] := by decide
theorem test_text_carrier :
    Assembler.program? defaultParams "RX_CARRIER_LOST\nRX_CARRIER_UP" =
      some [.rxEvent (-1), .rxEvent (-2)] := by decide
theorem test_text_rejects : Assembler.program? defaultParams "TX_NEXT_BIT 1" = none := by decide
theorem test_text_stream :
    Assembler.stream [.txOpen [0x5A#8], .txNextBit] =
      [.word 0x0100000001#40, .byte 0x5A#8, .word 0x0200000000#40] := by decide

/-! ## Witnesses: for each obligation with hypotheses, a state and operands that meet them -/

/-- Both units in a session, a whole command waiting. -/
def both : State :=
  { given (sending [0x41#8] 0 1#4) [.word 0x0200000000#40] with
    rx := (receiving false 2#17 [0x41#8]).rx }

theorem both_legal : both.Legal where
  params := ⟨by decide, by decide, by decide, by decide⟩
  tx :=
    { txs_wf := by decide
      txs_range := by decide
      phase_le := by decide
      idle := by decide
      count_range := by decide
      cursor_strict := by decide
      cursor_reference := by decide
      written := by decide
      written_past := by decide }
  rx :=
    { rxd_wf := by decide
      rxd_range := by decide
      idle := by decide
      capacity_range := by decide
      cursor_le := by decide
      written := by decide
      eos_iff := by decide
      ovf_eos := by decide
      lost_cont := by decide
      hunt_clear := by decide
      data_range := fun h => absurd h (by decide) }
  stream := by decide

/-- The same core after the end of stream, a legal state too. -/
def bothEnded : State := ended both

theorem bothEnded_legal : bothEnded.Legal :=
  { both_legal with
    rx :=
      { both_legal.rx with
        idle := by decide
        eos_iff := by decide
        ovf_eos := by decide
        lost_cont := by decide } }

/-- A legal state with no session. -/
def idleState : State := given State.reset [.word 0x0400000000#40]

theorem idleState_legal : idleState.Legal where
  params := ⟨by decide, by decide, by decide, by decide⟩
  tx :=
    { txs_wf := by decide
      txs_range := by decide
      phase_le := by decide
      idle := by decide
      count_range := by decide
      cursor_strict := by decide
      cursor_reference := by decide
      written := fun h => absurd h (by decide)
      written_past := by decide }
  rx :=
    { rxd_wf := by decide
      rxd_range := by decide
      idle := fun _ => rfl
      capacity_range := by decide
      cursor_le := by decide
      written := fun k hk => absurd hk (Nat.not_lt_zero k)
      eos_iff := by decide
      ovf_eos := by decide
      lost_cont := by decide
      hunt_clear := by decide
      data_range := fun h => absurd h (by decide) }
  stream := by decide

theorem witness_StepKeepsStatesLegal : ∃ s t, State.Legal s ∧ step s = .next t :=
  ⟨both, _, both_legal, rfl⟩

theorem witness_LegalStatesRunSafelyForever : ∃ s, State.Legal s := ⟨both, both_legal⟩

theorem witness_CountersFitTheirWidths : ∃ s, State.Legal s := ⟨idleState, idleState_legal⟩

theorem witness_DecodeOfEncodeIsTheOperation : (Instr.txOpen [0x48#8, 0x49#8]).wf = true := by decide

theorem witness_EncodeOfDecodeIsTheStream :
    decode [.word 0x0100000001#40, .byte 0x5A#8, .byte 0x5B#8] =
      .instr (.txOpen [0x5A#8]) [.byte 0x5B#8] := by decide

/-- Its second clause, and the length 0, the length 17 and the capacity 65537. -/
theorem witness_IllegalWordsAreThoseOfTheSpec :
    ((given State.reset [.word 0x1800000000#40]).commands = .word 0x1800000000#40 :: [] ∧
      decode [.word 0x1800000000#40] = .illegal 0x1800000000#40 []) ∧
    (State.reset.tx.active = false ∧ ([] : List Byte).length < 2 ^ 32 ∧ ([] : List Byte).length = 0) ∧
    ((List.replicate 17 7#8).length < 2 ^ 32 ∧
      State.reset.params.txMaxLen < (List.replicate 17 7#8).length) ∧
    (State.reset.rx.active = false ∧ 65536 < (65537#30).toNat) := by decide

theorem witness_StepRunsTheDecodedOperation :
    Instr.txNextBit.wf = true ∧ both.commands = encode .txNextBit ++ [] ∧
    decode both.commands = .instr .txNextBit [] := by decide

/-- No command at all, and a data phase one byte short. -/
theorem witness_CoreWaitsForAWholeCommand :
    State.reset.commands = [] ∧ [0x48#8].length < (2#32).toNat ∧
    (given State.reset [.word 0x0100000002#40, .byte 0x48#8]).commands =
      .word (0x01#8 ++ 2#32) :: [0x48#8].map .byte := by decide

theorem witness_OnlyABrokenStreamIsRefused :
    (given State.reset [.byte 1#8]).commands = .byte 1#8 :: [] ∧
    ([0x48#8].length < (2#32).toNat ∧
      (given State.reset [.word 0x0100000002#40, .byte 0x48#8, .word 0x0200000000#40]).commands =
        .word (0x01#8 ++ 2#32) :: ([0x48#8].map .byte ++ .word 0x0200000000#40 :: [])) ∧
    streamOk 0 both.commands = true := by decide

theorem witness_FetchWordIsRunNext :
    decodeTableWord 40 0x0100000002 = some (.txOpen [0#8, 0#8]) := by decide

theorem witness_ChecksRunInTheSpecsOrder :
    ((given both [.word 0x1400000002#40]).commands = .word 0x1400000002#40 :: [] ∧
      decode [.word 0x1400000002#40] = .illegal 0x1400000002#40 []) ∧
    both.tx.active = true ∧ both.rx.active = true ∧
    (needsSession .txNextBit = true ∧ isTxOp .txNextBit = true ∧ State.reset.tx.active = false) ∧
    (needsSession .rxResult = true ∧ isTxOp .rxResult = false ∧ State.reset.rx.active = false) ∧
    (0xFFFFFFFF#32).toInt < 0 ∧
    ((ended (receiving false 1#17 [0x41#8])).rx.active = true ∧ 0 ≤ (0x42#32).toInt ∧
      (ended (receiving false 1#17 [0x41#8])).rx.eos = true ∧
      (ended (receiving false 1#17 [0x41#8])).rx.capacity ≤
        (ended (receiving false 1#17 [0x41#8])).rx.writeCursor) ∧
    ((inFrame (ended (receiving false 1#17 [0x41#8])) 8#4 0x42#8).rx.rxdState = .data ∧
      8#4 ≤ (inFrame (ended (receiving false 1#17 [0x41#8])) 8#4 0x42#8).rx.rxdCount) := by decide

theorem witness_EveryOperationGivesOneResponse : ∃ t, exec .rxResult both = .next t := ⟨_, rfl⟩

theorem witness_UnitsShareNoState :
    isTxOp .txNextBit = true ∧ isTxOp .rxResult = false ∧
    (∃ t, exec .txNextBit both = .next t) ∧ ∃ t, exec .rxResult both = .next t :=
  ⟨rfl, rfl, ⟨_, rfl⟩, ⟨_, rfl⟩⟩

theorem witness_NoSessionChangesNothing :
    State.reset.tx.active = false ∧ State.reset.rx.active = false := by decide

/-- An error code other than BUFFER_OVERFLOW, and BUFFER_OVERFLOW. -/
theorem witness_ErrorsLeaveTheUnitsAlone :
    (∃ t r, exec (.rxAccept 0x41) (ended (receiving false 1#17 [])) = .next t ∧
      t.responses = (ended (receiving false 1#17 [])).responses ++ [r] ∧
      r.err ≠ .ok ∧ r.err ≠ .bufferOverflow) ∧
    (∃ t r, exec (.rxAccept 0x42) (receiving false 1#17 [0x41#8]) = .next t ∧
      t.responses = (receiving false 1#17 [0x41#8]).responses ++ [r] ∧
      r.err ≠ .ok ∧ r.err = .bufferOverflow) :=
  ⟨⟨_, _, rfl, rfl, by decide, by decide⟩, ⟨_, _, rfl, rfl, by decide, rfl⟩⟩

theorem witness_ErrorCodesHaveTheSpecsValues :
    ∃ t r, step both = .next t ∧ t.responses = both.responses ++ [r] := ⟨_, _, rfl, rfl⟩

/-- BUSY; lengths 0 and 17; lengths 1 and 16, under either boundary. -/
theorem witness_TxOpenFollowsItsRule :
    (sending [0x41#8] 0 0#4).tx.active = true ∧
    (State.reset.tx.active = false ∧ ([] : List Byte).length = 0 ∧
      State.reset.params.txMaxLen < (List.replicate 17 0x41#8).length) ∧
    (State.reset.tx.active = false ∧ 1 ≤ [0x41#8].length ∧
      (List.replicate 16 0x41#8).length ≤ State.reset.params.txMaxLen ∧
      State.reset.params.boundary = .strict) ∧
    ((reference State.reset).tx.active = false ∧
      [0x41#8].length ≤ (reference State.reset).params.txMaxLen ∧
      (reference State.reset).params.boundary = .reference) := by decide

theorem witness_DrawnBytesAreFreeValues :
    (reference State.reset).params.boundary = .reference ∧ (reference State.reset).tx.active = false ∧
    1 ≤ [0x41#8].length ∧ [0x41#8].length ≤ (reference State.reset).params.txMaxLen ∧
    ∃ t, exec (.txOpen [0x41#8]) (reference State.reset) = .next t :=
  ⟨rfl, rfl, by decide, by decide, _, rfl⟩

/-- No session; exhausted; positions 0, 1, 8 and 9 of the first byte, whose bit is read from TXS at 1 and 8. -/
theorem witness_TxNextBitFollowsItsRule :
    State.reset.tx.active = false ∧
    ((sending [0x41#8] 1 0#4).tx.active = true ∧ ¬ FramingHolds (sending [0x41#8] 1 0#4)) ∧
    ∀ p ∈ [0, 1, 8, 9],
      (sending [0x41#8] 0 (BitVec.ofNat 4 p)).tx.active = true ∧
      FramingHolds (sending [0x41#8] 0 (BitVec.ofNat 4 p)) ∧
      (sending [0x41#8] 0 (BitVec.ofNat 4 p)).tx.bitPhase.toNat = p ∧ p ≤ 9 ∧
      (sending [0x41#8] 0 (BitVec.ofNat 4 p)).tx.txs.read
        (sending [0x41#8] 0 (BitVec.ofNat 4 p)).tx.byteCursor = some 0x41#8 ∧
      (sending [0x41#8] 0 (BitVec.ofNat 4 p)).tx.byteCursor ≤
        (sending [0x41#8] 0 (BitVec.ofNat 4 p)).params.txMaxLen := by
  unfold FramingHolds
  decide

/-- A session that has written nothing, at positions 1 and 8, the last index that exists and the first that does not. -/
def hollow (cursor : Nat) (phase : BitVec 4) : State :=
  { State.reset with
    tx := { TxUnit.reset with active := true, byteCount := 18, byteCursor := cursor, bitPhase := phase } }

theorem witness_TxNextBitOutsideTheWrittenBytes :
    ∀ p ∈ [1, 8],
      ((hollow 16 (BitVec.ofNat 4 p)).tx.active = true ∧ FramingHolds (hollow 16 (BitVec.ofNat 4 p)) ∧
        (hollow 16 (BitVec.ofNat 4 p)).tx.bitPhase.toNat = p ∧ 1 ≤ p ∧ p ≤ 8 ∧
        (hollow 16 (BitVec.ofNat 4 p)).tx.txs.read 16 = none ∧
        16 ≤ (hollow 16 (BitVec.ofNat 4 p)).params.txMaxLen) ∧
      ((hollow 17 (BitVec.ofNat 4 p)).tx.active = true ∧ FramingHolds (hollow 17 (BitVec.ofNat 4 p)) ∧
        (hollow 17 (BitVec.ofNat 4 p)).tx.bitPhase.toNat = p ∧
        (hollow 17 (BitVec.ofNat 4 p)).params.txMaxLen < 17) := by
  unfold FramingHolds
  decide

theorem witness_TxCloseFollowsItsRule :
    State.reset.tx.active = false ∧ both.tx.active = true := by decide

theorem witness_DoneIsActiveAndNotFraming : State.reset.tx.active = false := by decide

theorem witness_TxRdsrShowsTheStatusWords :
    both.tx.byteCursor < 2 ^ 32 ∧ both.tx.byteCount < 2 ^ 32 := by decide

theorem witness_StatusReadsAreLegalWithoutASession :
    ∃ s : State, s.tx.Legal s.params ∧ s.tx.active = false ∧ s.rx.Legal ∧ s.rx.active = false :=
  ⟨idleState, idleState_legal.tx, rfl, idleState_legal.rx, rfl⟩

/-- A message of length 1 and one of TX_MAX_LEN bytes; and a message that is over. -/
theorem witness_FrameLaw :
    (State.reset.params.boundary = .strict ∧ State.reset.tx.active = false ∧
      1 ≤ [0x41#8].length ∧ [0x41#8].length ≤ State.reset.params.txMaxLen ∧
      1 ≤ (List.replicate 16 0x41#8).length ∧
      (List.replicate 16 0x41#8).length ≤ State.reset.params.txMaxLen) ∧
    (sending [0x41#8] 1 0#4).tx.done (sending [0x41#8] 1 0#4).params.boundary = true ∧
    Instr.txNextBit ≠ .txClose ∧ ∃ t, exec .txNextBit (sending [0x41#8] 1 0#4) = .next t :=
  ⟨by decide, by decide, by decide, _, rfl⟩

theorem witness_BoundaryDecidesTheNumberOfFrames :
    (∃ t, step both = .next t) ∧
    (State.reset.tx.active = false ∧ 1 ≤ [0x41#8].length ∧
      [0x41#8].length ≤ State.reset.params.txMaxLen ∧ State.reset.params.boundary = .strict) ∧
    ((reference State.reset).tx.active = false ∧
      [0x41#8].length ≤ (reference State.reset).params.txMaxLen ∧
      (reference State.reset).params.boundary = .reference) :=
  ⟨⟨_, rfl⟩, by decide, by decide⟩

theorem witness_MessageIsFixedDuringASession :
    both.tx.active = true ∧ Instr.txNextBit ≠ .txClose ∧ (∀ m, Instr.txNextBit ≠ .txOpen m) ∧
    ∃ t, exec .txNextBit both = .next t :=
  ⟨rfl, by decide, by simp, ⟨_, rfl⟩⟩

/-- BUSY; 65537; 65536 and 0. -/
theorem witness_RxOpenFollowsItsRule :
    both.rx.active = true ∧ (State.reset.rx.active = false ∧ 65536 < (65537#30).toNat) ∧
    ((65536#30).toNat ≤ 65536 ∧ (0#30).toNat ≤ 65536) := by decide

/-- A receive unit that has written nothing and whose cursor may lie at the end of RXD or past it, which no run reaches. -/
def outside (cursor : BitVec 17) : State :=
  { State.reset with
    rx := { RxUnit.reset with active := true, capacity := 65538#17, writeCursor := cursor } }

/-- No session; the codes −1 and −2^31; the symbols 0 and 2^31 − 1; after the end of stream; full; with room, at the first and
the last index. -/
theorem witness_RxAcceptFollowsItsRule :
    State.reset.rx.active = false ∧
    ((0xFFFFFFFF#32).toInt < 0 ∧ (0x80000000#32).toInt < 0) ∧
    (0 ≤ (0#32).toInt ∧ 0 ≤ (0x7FFFFFFF#32).toInt) ∧
    ((ended (receiving false 1#17 [])).rx.active = true ∧ (ended (receiving false 1#17 [])).rx.eos = true) ∧
    ((receiving false 1#17 [0x41#8]).rx.active = true ∧ (receiving false 1#17 [0x41#8]).rx.eos = false ∧
      (receiving false 1#17 [0x41#8]).rx.capacity ≤ (receiving false 1#17 [0x41#8]).rx.writeCursor) ∧
    ((receiving false 1#17 []).rx.active = true ∧ (receiving false 1#17 []).rx.eos = false ∧
      (receiving false 1#17 []).rx.writeCursor < (receiving false 1#17 []).rx.capacity ∧
      (receiving false 1#17 []).rx.writeCursor.toNat < 65536) ∧
    ((outside 65535#17).rx.active = true ∧ (outside 65535#17).rx.eos = false ∧
      (outside 65535#17).rx.writeCursor < (outside 65535#17).rx.capacity ∧
      (outside 65535#17).rx.writeCursor.toNat < 65536) := by decide

theorem witness_RxdOutsideTheWrittenBytes :
    ((outside 65536#17).rx.active = true ∧ 0 ≤ (0x41#32).toInt ∧ (outside 65536#17).rx.eos = false ∧
      (outside 65536#17).rx.writeCursor < (outside 65536#17).rx.capacity ∧
      65536 ≤ (outside 65536#17).rx.writeCursor.toNat) ∧
    ((inFrame (outside 65536#17) 8#4 0x41#8).rx.rxdState = .data ∧
      8#4 ≤ (inFrame (outside 65536#17) 8#4 0x41#8).rx.rxdCount ∧
      (inFrame (outside 65536#17) 8#4 0x41#8).rx.eos = false) ∧
    ((outside 65537#17).rx.active = true ∧ 65536 < (outside 65537#17).rx.writeCursor.toNat) ∧
    ((outside 65536#17).rx.writeCursor.toNat ≤ 65536 ∧
      65535 < (outside 65536#17).rx.writeCursor.toNat ∧
      (outside 65536#17).rx.rxd.read 65535 = none) := by
  decide

/-- CAP = 1; CAP = 65536 and CAP = 0 select the largest capacity. -/
theorem witness_CapacityCountsDataBytes :
    State.reset.rx.active = false ∧ (1 ≤ 1 ∧ 1 ≤ 65536 ∧ 1 = (1#30).toNat) ∧
    (65536 ≤ 65536 ∧ 65536 = (65536#30).toNat) ∧ 0#30 = 0#30 ∧
    [0x41#32].length = 1 ∧ (∀ x ∈ [0x41#32], 0 ≤ x.toInt) ∧ 0 ≤ (0x42#32).toInt :=
  ⟨rfl, ⟨by decide, by decide, rfl⟩, ⟨by decide, rfl⟩, rfl, rfl,
    fun x hx => by rw [List.mem_singleton.1 hx]; decide, by decide⟩

/-- No session; a byte that was written; the largest count. -/
theorem witness_RxResultFollowsItsRule :
    State.reset.rx.active = false ∧
    (both.rx.active = true ∧ both.rx.writeCursor.toNat ≤ 65536 ∧ 0 < both.rx.writeCursor.toNat ∧
      both.rx.rxd.read 0 = some 0x41#8) ∧
    ((outside 65536#17).rx.active = true ∧ (outside 65536#17).rx.writeCursor.toNat ≤ 65536) := by
  decide

theorem witness_RxResultIsIdempotentAndAcceptIsNot :
    State.Legal both ∧
    ∃ t, both.rx.active = true ∧ 0 ≤ (0x42#32).toInt ∧ both.rx.eos = false ∧
      exec (.rxAccept 0x42#32) both = .next t ∧ t.responses = both.responses ++ [plainOk] :=
  ⟨both_legal, _, rfl, by decide, rfl, rfl, rfl⟩

theorem witness_RxCloseFollowsItsRule :
    State.reset.rx.active = false ∧ both.rx.active = true := by decide

theorem witness_EmitSilenceOnlyDrivesItsPort :
    Instr.rxOpen false true 1#30 ≠ .rxRdsr ∧
    ∃ t, State.reset.rx.active = false ∧ (65536#30).toNat ≤ 65536 ∧
      exec (.rxOpen false true 65536#30) State.reset = .next t :=
  ⟨by decide, _, rfl, by decide, rfl⟩

theorem witness_DeliveredBytesNeverChange :
    both.rx.active = true ∧ (Instr.rxAccept 0x42#32) ≠ .rxClose ∧
    ∃ t, exec (.rxAccept 0x42#32) both = .next t :=
  ⟨rfl, by decide, ⟨_, rfl⟩⟩

/-- No session, a negative code, and every row of the transition table: the end of stream, carrier lost with and without
CONTINUE, carrier up, and a code that is neither, negative or not. -/
theorem witness_RxEventFollowsTheTransitionTable :
    State.reset.rx.active = false ∧ (0x80000000#32).toInt < 0 ∧
    both.rx.active = true ∧ bothEnded.rx.active = true ∧ bothEnded.rx.state = .streamEnded ∧
    (both.rx.state ≠ .streamEnded ∧ (0xFFFFFFFF#32).toInt = -1 ∧ both.rx.cont = false) ∧
    ((receiving true 1#17 []).rx.active = true ∧ (receiving true 1#17 []).rx.state ≠ .streamEnded ∧
      (receiving true 1#17 []).rx.cont = true) ∧
    ((0xFFFFFFFE#32).toInt ≠ -1 ∧ 0xFFFFFFFE#32 = both.params.sigCarrierUp) ∧
    ((0xFFFFFFFB#32).toInt ≠ -1 ∧ 0xFFFFFFFB#32 ≠ both.params.sigCarrierUp) ∧
    ((5#32).toInt ≠ -1 ∧ 5#32 ≠ both.params.sigCarrierUp) := by decide

/-- A carrier-lost code with CONTINUE = 0, on both paths; a code after the end of stream. -/
theorem witness_EndOfStreamLaws :
    (State.Legal both ∧ both.rx.active = true ∧ both.rx.cont = false ∧ (0xFFFFFFFF#32).toInt = -1 ∧
      (∃ t, exec (.rxEvent 0xFFFFFFFF#32) both = .next t) ∧
      (0xFFFFFFFF#32).toInt < 0 ∧ ∃ t, exec (.rxAccept 0xFFFFFFFF#32) both = .next t) ∧
    (State.Legal bothEnded ∧ bothEnded.rx.active = true ∧ bothEnded.rx.eos = true ∧
      0 ≤ (0x41#32).toInt ∧ ∃ t, exec (.rxEvent 0xFFFFFFFE#32) bothEnded = .next t) :=
  ⟨⟨both_legal, rfl, rfl, by decide, ⟨_, rfl⟩, by decide, ⟨_, rfl⟩⟩,
    bothEnded_legal, rfl, rfl, by decide, _, rfl⟩

/-- With CONTINUE = 1: a legal session and a status code; and an operation that sets EOS. -/
theorem witness_EndOfStreamLaws_continue :
    (∃ s t : State, s.Legal ∧ s.rx.active = true ∧ s.rx.cont = true ∧
      exec (.rxEvent 0xFFFFFFFF#32) s = .next t) ∧
    (∃ t, (receiving true 1#17 [0x41#8]).rx.active = true ∧ (receiving true 1#17 [0x41#8]).rx.cont = true ∧
      (receiving true 1#17 [0x41#8]).rx.eos = false ∧
      exec (.rxAccept 0x42#32) (receiving true 1#17 [0x41#8]) = .next t ∧ t.rx.eos = true) :=
  ⟨⟨{ both with rx := { both.rx with cont := true } }, _,
    { both_legal with rx := { both_legal.rx with idle := by decide, lost_cont := by decide } }, rfl, rfl, rfl⟩,
    ⟨_, rfl, rfl, rfl, rfl, rfl⟩⟩

theorem witness_EndOfStreamHasTwoCauses :
    (∃ t, both.rx.eos = false ∧ exec (.rxEvent 0xFFFFFFFF#32) both = .next t ∧ t.rx.eos = true) ∧
    (∃ t, (receiving false 1#17 [0x41#8]).rx.eos = false ∧
      exec (.rxAccept 0x42#32) (receiving false 1#17 [0x41#8]) = .next t ∧ t.rx.eos = true) :=
  ⟨⟨_, rfl, rfl, rfl⟩, ⟨_, rfl, rfl, rfl⟩⟩

/-- A legal state in which OVF is set: BUFFER_OVERFLOW has happened. -/
def overflowed : State := { bothEnded with rx := { bothEnded.rx with ovf := true, capacity := 1#17 } }

theorem overflowed_legal : overflowed.Legal :=
  { bothEnded_legal with
    rx :=
      { bothEnded_legal.rx with
        idle := by decide
        capacity_range := by decide
        cursor_le := by decide
        ovf_eos := by decide } }

theorem witness_EndOfStreamIsNeverCleared :
    State.Legal overflowed ∧ overflowed.rx.ovf = true ∧ overflowed.rx.eos = true ∧
    overflowed.rx.active = true ∧ (Instr.rxEvent 0xFFFFFFFE#32) ≠ .rxClose ∧
    ∃ t, exec (.rxEvent 0xFFFFFFFE#32) overflowed = .next t :=
  ⟨overflowed_legal, rfl, rfl, rfl, by decide, _, rfl⟩

theorem witness_ListeningIsEnteredOnlyByOpenAndClose :
    ∃ t, exec .rxClose bothEnded = .next t ∧ bothEnded.rx.state ≠ .listening ∧
      t.rx.state = .listening :=
  ⟨_, rfl, by decide, rfl⟩

/-- HUNT; data bits 0 and 7. -/
theorem witness_RxLinebitTakesTheFrame :
    (both.rx.active = true ∧ both.rx.rxdState = .hunt) ∧
    ∀ k ∈ [0, 7],
      (inFrame both (BitVec.ofNat 4 k) 0#8).rx.active = true ∧
      (inFrame both (BitVec.ofNat 4 k) 0#8).rx.rxdState = .data ∧
      (inFrame both (BitVec.ofNat 4 k) 0#8).rx.rxdCount.toNat < 8 := by decide

/-- The stop bit after the end of stream, with no free slot, and with room. -/
theorem witness_RxLinebitDeliversTheByte :
    (∀ s ∈ [bothEnded, receiving false 1#17 [0x41#8], both],
      (inFrame s 8#4 0x42#8).rx.active = true ∧ (inFrame s 8#4 0x42#8).rx.rxdState = .data ∧
      (inFrame s 8#4 0x42#8).rx.rxdCount.toNat = 8) ∧
    bothEnded.rx.eos = true ∧
    ((receiving false 1#17 [0x41#8]).rx.eos = false ∧
      (receiving false 1#17 [0x41#8]).rx.capacity ≤ (receiving false 1#17 [0x41#8]).rx.writeCursor) ∧
    (both.rx.eos = false ∧ both.rx.writeCursor < both.rx.capacity ∧
      both.rx.writeCursor.toNat < 65536) := by decide

theorem witness_FramingErrorDiscardsTheFrame :
    (inFrame both 8#4 0x41#8).rx.active = true ∧ (inFrame both 8#4 0x41#8).rx.rxdState = .data ∧
    (inFrame both 8#4 0x41#8).rx.rxdCount.toNat = 8 := by decide

/-- The same core with its deframer at the stop bit, a legal state. -/
theorem inFrame_both_legal : (inFrame both 8#4 0x41#8).Legal :=
  { both_legal with
    rx :=
      { both_legal.rx with
        idle := by decide
        hunt_clear := by decide
        data_range := fun _ => ⟨by decide, fun i hi => BitVec.getLsbD_of_ge _ _ hi⟩ } }

theorem witness_BytesAreDeliveredOnTheStopBit :
    (∃ t, State.Legal (inFrame both 8#4 0x41#8) ∧
      exec (.rxLinebit true) (inFrame both 8#4 0x41#8) = .next t ∧
      t.rx.writeCursor ≠ (inFrame both 8#4 0x41#8).rx.writeCursor) ∧
    (∃ t, (inFrame both 4#4 0x01#8).rx.active = true ∧
      exec (.rxEvent 0xFFFFFFFF#32) (inFrame both 4#4 0x01#8) = .next t ∧
      (0xFFFFFFFF#32).toInt = -1 ∧ (inFrame both 4#4 0x01#8).rx.state ≠ .streamEnded) ∧
    (∃ t, exec (.rxEvent 0xFFFFFFFE#32) (inFrame both 4#4 0x01#8) = .next t ∧
      (0xFFFFFFFE#32).toInt ≠ -1) :=
  ⟨⟨_, inFrame_both_legal, rfl, by decide⟩, ⟨_, rfl, rfl, by decide, by decide⟩, ⟨_, rfl, by decide⟩⟩

/-- Idle 1s; a capacity equal to the length, CAP = 0, and under REFERENCE the drawn byte. -/
theorem witness_RoundTripThroughTheLine :
    (both.rx.active = true ∧ both.rx.rxdState = .hunt) ∧
    (State.reset.tx.active = false ∧ State.reset.rx.active = false ∧ 1 ≤ [0x4F#8, 0x4B#8].length ∧
      [0x4F#8, 0x4B#8].length ≤ State.reset.params.txMaxLen) ∧
    ((2#30).toNat ≤ 65536 ∧ [0x4F#8, 0x4B#8].length ≤ (2#30).toNat) ∧
    ((0#30).toNat ≤ 65536 ∧ [0x4F#8, 0x4B#8].length ≤ 65536) ∧
    ∃ u d, (reference State.reset).params.boundary = .reference ∧
      (reference State.reset).tx.active = false ∧
      exec (.txOpen [0x4F#8]) (reference State.reset) = .next u ∧ u.tx.txs.read 1 = some d :=
  ⟨⟨rfl, rfl⟩, by decide, by decide, by decide, _, _, rfl, rfl, rfl, rfl⟩

end Sys2Proof.Tests
end

/-! ## The widths of the counters (00_scope.md R6) -/

namespace Sys2Proof

/-- `widthFor m` is the smallest width that holds every number up to `m`. -/
theorem Config.lt_two_pow_iff_widthFor_le {m : Nat} (hm : m ≠ 0) (w : Nat) :
    m < 2 ^ w ↔ Config.widthFor m ≤ w :=
  (Nat.log2_lt hm).symm

theorem Config.widthFor_rxMaxCapacity : Config.widthFor Config.rxMaxCapacity = 17 :=
  congrArg (· + 1) (Nat.log2_two_pow (n := 16))

theorem Config.lt_two_pow_wTx {p : Params} {n : Nat} (hn : n ≤ p.txMaxLen + 1) :
    n < 2 ^ Config.wTx p :=
  hn.trans_lt ((Config.lt_two_pow_iff_widthFor_le (Nat.succ_ne_zero _) _).2 le_rfl)

namespace Machine

theorem TxUnit.Legal.byteCount_le {p : Params} {tx : TxUnit} (h : tx.Legal p) :
    tx.byteCount ≤ p.txMaxLen := by
  cases ha : tx.active with
  | false =>
    obtain ⟨hcount, -, -⟩ := h.idle ha
    omega
  | true => exact (h.count_range ha).2

/-- The REFERENCE test lets the cursor reach BYTE_COUNT + 1, which is why W_TX has room for TX_MAX_LEN + 1 (R6, R25). -/
theorem TxUnit.Legal.byteCursor_le {p : Params} {tx : TxUnit} (h : tx.Legal p) :
    tx.byteCursor ≤ p.txMaxLen + 1 := by
  have hcount := h.byteCount_le
  cases ha : tx.active with
  | false =>
    obtain ⟨-, hcursor, -⟩ := h.idle ha
    omega
  | true =>
    cases hb : p.boundary with
    | strict =>
      have hcursor := (h.cursor_strict hb ha).1
      omega
    | reference =>
      have hcursor := (h.cursor_reference hb ha).1
      omega

/-- Settles O6: both counters are at most TX_MAX_LEN + 1, and each width is a `Config.widthFor`. -/
theorem countersFitTheirWidths : Obligations.CountersFitTheirWidths := by
  refine ⟨fun s hs => ⟨?_, ?_⟩, fun p w => ?_, fun w => ?_⟩
  · exact Config.lt_two_pow_wTx (Nat.le_succ_of_le hs.tx.byteCount_le)
  · exact Config.lt_two_pow_wTx hs.tx.byteCursor_le
  · exact Config.lt_two_pow_iff_widthFor_le (Nat.succ_ne_zero _) w
  · rw [Config.lt_two_pow_iff_widthFor_le (by decide), Config.widthFor_rxMaxCapacity]

/-! ## The drawn byte (00_scope.md R11, 40_tx_framer.md R100) -/

@[simp] theorem TxUnit.opened_strict_draws (m : List Byte) (u : TxUnit) :
    (u.opened .strict m).draws = u.draws := rfl
@[simp] theorem TxUnit.opened_reference_draws (m : List Byte) (u : TxUnit) :
    (u.opened .reference m).draws = u.draws + 1 := rfl
@[simp] theorem TxUnit.opened_reference_txs (m : List Byte) (u : TxUnit) :
    (u.opened .reference m).txs =
      (u.txs.writeAll 0 m).write m.length (Config.draw8 u.draws) := rfl
@[simp] theorem TxUnit.closed_draws (u : TxUnit) : u.closed.draws = u.draws := rfl

/-- A TX_OPEN that meets no error begins the session of R100. -/
theorem exec_txOpen_accepted {s : State} {m : List Byte} (ha : s.tx.active = false)
    (hpos : 1 ≤ m.length) (hmax : m.length ≤ s.params.txMaxLen) :
    exec (.txOpen m) s = .next (s.endTx (s.tx.opened s.params.boundary m) (answer [] [])) := by
  have hlen : ¬ (m.length = 0 ∨ s.params.txMaxLen < m.length) := by omega
  simp only [exec, execTxOpen, txOpen, ha, Bool.false_eq_true, if_false, hlen, finishTx]

/-- Of the ways a TX operation ends, only a session opened under REFERENCE draws a byte. -/
theorem TxEnds.draws_cases {p : Params} {tx u : TxUnit} {i : Instr} {r : Response}
    (h : TxEnds p tx i u r) :
    u.draws = tx.draws ∨
      (p.boundary = .reference ∧ tx.active = false ∧ (∃ m, i = .txOpen m) ∧
        u.draws = tx.draws + 1) := by
  cases h with
  | rdsr => exact .inl rfl
  | busy m _ => exact .inl rfl
  | badLength m _ _ => exact .inl rfl
  | opened m ha _ _ =>
    cases hb : p.boundary with
    | strict => exact .inl (TxUnit.opened_strict_draws m tx)
    | reference => exact .inr ⟨rfl, ha, ⟨m, rfl⟩, TxUnit.opened_reference_draws m tx⟩
  | idleNoSession _ => exact .inl rfl
  | idleDone _ _ => exact .inl rfl
  | sent b _ _ _ => exact .inl (TxUnit.advance_draws tx)
  | closeNoSession _ => exact .inl rfl
  | closed _ => exact .inl (TxUnit.closed_draws tx)

/-- Settles O24: the open under REFERENCE is computed, and every operation is one of `TxEnds` or leaves TX alone. -/
theorem drawnBytesAreFreeValues : Obligations.DrawnBytesAreFreeValues := by
  refine ⟨fun s t m hb ha hpos hmax h => ?_, fun i s t h => ?_⟩
  · rw [exec_txOpen_accepted ha hpos hmax, hb, Host.Outcome.next.injEq] at h
    subst h
    exact ⟨by rw [State.endTx_tx, TxUnit.opened_reference_txs, Memory.read_write_same],
      TxUnit.opened_reference_draws m s.tx⟩
  · rcases exec_ends h with ⟨-, u, r, rfl, hu⟩ | ⟨-, u, r, rfl, -⟩
    · exact hu.draws_cases
    · exact .inl rfl

end Machine
end Sys2Proof

/-! ## Reset, and what TX and RX have to do with each other (10_state.md R20, R39) -/

namespace Sys2Proof.Machine

/-- Settles O1: every clause is one field of `State.reset`, and an empty byte space reads as none. -/
theorem resetHasTheValuesOfTheSpec : Obligations.ResetHasTheValuesOfTheSpec :=
  ⟨rfl, rfl, rfl, rfl, fun _ => rfl, rfl, rfl, rfl, rfl, rfl, rfl, rfl, rfl, rfl, rfl, rfl,
    fun _ => rfl⟩

/-- A TX operation is a function of the parameters and TX alone: RX is not among what it reads. -/
theorem exec_eq_finishTx {i : Instr} (hi : isTxOp i = true) :
    ∃ op : Params → TxUnit → TxResult, ∀ s, exec i s = finishTx s (op s.params s.tx) := by
  cases i with
  | txOpen m => exact ⟨fun p => txOpen p m, fun _ => rfl⟩
  | txNextBit => exact ⟨txNextBit, fun _ => rfl⟩
  | txClose => exact ⟨fun _ => txClose, fun _ => rfl⟩
  | txRdsr => exact ⟨txRdsr, fun _ => rfl⟩
  | rxOpen _ _ _ | rxAccept _ | rxEvent _ | rxLinebit _ | rxResult | rxClose | rxRdsr => cases hi

/-- An RX operation is a function of the parameters and RX alone. -/
theorem exec_eq_finishRx {i : Instr} (hi : isTxOp i = false) :
    ∃ op : Params → RxUnit → RxResult, ∀ s, exec i s = finishRx s (op s.params s.rx) := by
  cases i with
  | txOpen _ | txNextBit | txClose | txRdsr => cases hi
  | rxOpen c e k => exact ⟨fun _ => rxOpen c e k, fun _ => rfl⟩
  | rxAccept v => exact ⟨fun p => rxAccept p v, fun _ => rfl⟩
  | rxEvent code => exact ⟨fun p => rxEvent p code, fun _ => rfl⟩
  | rxLinebit b => exact ⟨fun _ => rxLinebit b, fun _ => rfl⟩
  | rxResult => exact ⟨fun _ => rxResult, fun _ => rfl⟩
  | rxClose => exact ⟨fun _ => rxClose, fun _ => rfl⟩
  | rxRdsr => exact ⟨fun _ => rxRdsr, fun _ => rfl⟩

/-- Ending a TX operation commutes with replacing RX. -/
theorem finishTx_replace_rx (s : State) (rx : RxUnit) (o : TxResult) :
    finishTx { s with rx := rx } o = mapNext (fun t => { t with rx := rx }) (finishTx s o) := by
  cases o <;> rfl

/-- Ending an RX operation commutes with replacing TX. -/
theorem finishRx_replace_tx (s : State) (tx : TxUnit) (o : RxResult) :
    finishRx { s with tx := tx } o = mapNext (fun t => { t with tx := tx }) (finishRx s o) := by
  cases o <;> rfl

/-- Settles O19: an operation is a function of its own unit, and its end writes no other. -/
theorem unitsShareNoState : Obligations.UnitsShareNoState := by
  refine ⟨fun i s rx hi => ?_, fun i s tx hi => ?_⟩
  · obtain ⟨op, hop⟩ := exec_eq_finishTx hi
    refine ⟨fun t h => ?_, ?_⟩
    · obtain ⟨u, r, -, rfl⟩ := finishTx_next ((hop s).symm.trans h)
      exact State.endTx_rx s u r
    · rw [hop, hop]
      exact finishTx_replace_rx s rx _
  · obtain ⟨op, hop⟩ := exec_eq_finishRx hi
    refine ⟨fun t h => ?_, ?_⟩
    · obtain ⟨u, r, -, rfl⟩ := finishRx_next ((hop s).symm.trans h)
      exact State.endRx_tx s u r
    · rw [hop, hop]
      exact finishRx_replace_tx s tx _

end Sys2Proof.Machine

/-! ## The status words and TX.DONE (10_state.md R27, R36, R37) -/

namespace Sys2Proof.Machine

theorem done_iff_not_FramingHolds (s : State) :
    s.tx.done s.params.boundary = true ↔ s.tx.active = true ∧ ¬ FramingHolds s := by
  rw [← framing_iff_FramingHolds, TxUnit.done, Bool.and_eq_true, Bool.not_eq_true',
    Bool.not_eq_true]

/-- Settles O28, with the model's framing test replaced by R27's. -/
theorem doneIsActiveAndNotFraming : Obligations.DoneIsActiveAndNotFraming := by
  refine fun s => ⟨done_iff_not_FramingHolds s, fun ha => ?_⟩
  rw [TxUnit.done, ha, Bool.false_and]

/-- A field of a word is known from its bits. -/
theorem extractLsb'_eq_of_getLsbD {w : Word} {lo n : Nat} {f : BitVec n}
    (h : ∀ i < n, w.getLsbD (lo + i) = f.getLsbD i) : w.extractLsb' lo n = f := by
  refine BitVec.eq_of_getLsbD_eq fun i hi => ?_
  rw [BitVec.getLsbD_extractLsb', decide_eq_true hi, Bool.true_and, h i hi]

theorem txsr0_bitPhase (bd : Boundary) (u : TxUnit) :
    (txsr0 bd u).extractLsb' 4 4 = u.bitPhase :=
  extractLsb'_eq_of_getLsbD fun i hi => by grind [getLsbD_txsr0]

theorem txsr0_reserved (bd : Boundary) (u : TxUnit) :
    (txsr0 bd u).extractLsb' 8 24 = 0#24 :=
  extractLsb'_eq_of_getLsbD fun i hi => by grind [getLsbD_txsr0]

/-- Settles O29: the words are TXSR0 to TXSR2, each field read off its bits. -/
theorem txRdsrShowsTheStatusWords : Obligations.TxRdsrShowsTheStatusWords := by
  refine fun s => ⟨txsr0 s.params.boundary s.tx, txsr1 s.tx, txsr2 s.tx, rfl, getLsbD_txsr0 _ _ 0,
    ?done, getLsbD_txsr0 _ _ 2, getLsbD_txsr0 _ _ 3, txsr0_bitPhase _ _, txsr0_reserved _ _,
    fun h => Nat.mod_eq_of_lt h, fun h => Nat.mod_eq_of_lt h⟩
  case done =>
    rw [getLsbD_txsr0]
    exact done_iff_not_FramingHolds s

theorem rxsr0_state (u : RxUnit) : (rxsr0 u).extractLsb' 4 2 = u.state.code :=
  extractLsb'_eq_of_getLsbD fun i hi => by grind [getLsbD_rxsr0]

theorem rxsr0_rxdCount (u : RxUnit) : (rxsr0 u).extractLsb' 16 4 = u.rxdCount :=
  extractLsb'_eq_of_getLsbD fun i hi => by grind [getLsbD_rxsr0]

theorem rxsr0_reserved (u : RxUnit) :
    (rxsr0 u).extractLsb' 6 2 = 0#2 ∧ (rxsr0 u).extractLsb' 10 2 = 0#2 ∧
      (rxsr0 u).extractLsb' 13 3 = 0#3 ∧ (rxsr0 u).extractLsb' 20 12 = 0#12 := by
  refine ⟨?_, ?_, ?_, ?_⟩ <;>
    exact extractLsb'_eq_of_getLsbD fun i hi => by grind [getLsbD_rxsr0]

theorem rxsr0_rxdState (u : RxUnit) : (rxsr0 u).getLsbD 12 = true ↔ u.rxdState = .data := by
  have hbit : (rxsr0 u).getLsbD 12 = u.rxdState.code.getLsbD 0 := getLsbD_rxsr0 u 12
  rw [hbit]
  cases u.rxdState <;> decide

/-- Settles O41: the words are RXSR0 to RXSR2, each field read off its bits. -/
theorem rxRdsrShowsTheStatusWords : Obligations.RxRdsrShowsTheStatusWords := by
  intro s
  obtain ⟨h6, h10, h13, h20⟩ := rxsr0_reserved s.rx
  refine ⟨rxsr0 s.rx, rxsr1 s.rx, rxsr2 s.rx, rfl, getLsbD_rxsr0 _ 0, getLsbD_rxsr0 _ 1,
    getLsbD_rxsr0 _ 2, getLsbD_rxsr0 _ 3, ?state, h6, getLsbD_rxsr0 _ 8, getLsbD_rxsr0 _ 9, h10,
    rxsr0_rxdState _, h13, rxsr0_rxdCount _, h20,
    BitVec.toNat_setWidth_of_le (by decide), BitVec.toNat_setWidth_of_le (by decide)⟩
  case state =>
    rw [rxsr0_state]
    cases s.rx.state <;> rfl

end Sys2Proof.Machine

/-! ## What a session keeps (10_state.md R26, R32) -/

namespace Sys2Proof.Machine

/-- A TX operation writes the message, or begins or ends a session, only as TX_OPEN does outside a session or as
TX_CLOSE (R26). -/
theorem TxEnds.message_cases {p : Params} {tx u : TxUnit} {i : Instr} {r : Response}
    (h : TxEnds p tx i u r) :
    (u.active = tx.active ∧ u.byteCount = tx.byteCount ∧ u.txs = tx.txs) ∨
      (tx.active = false ∧ ∃ m, i = .txOpen m) ∨ i = .txClose := by
  cases h with
  | rdsr | busy | badLength | idleNoSession | idleDone | closeNoSession => exact .inl ⟨rfl, rfl, rfl⟩
  | opened m ha _ _ => exact .inr (.inl ⟨ha, m, rfl⟩)
  | sent b _ _ _ =>
    exact .inl ⟨TxUnit.advance_active tx, TxUnit.advance_byteCount tx, TxUnit.advance_txs tx⟩
  | closed _ => exact .inr (.inr rfl)

/-- The same of every operation, since RX's leave TX as it was (R20). -/
theorem exec_message_cases {i : Instr} {s t : State} (h : exec i s = .next t) :
    (t.tx.active = s.tx.active ∧ t.tx.byteCount = s.tx.byteCount ∧ t.tx.txs = s.tx.txs) ∨
      (s.tx.active = false ∧ ∃ m, i = .txOpen m) ∨ i = .txClose := by
  rcases exec_ends h with ⟨-, u, r, rfl, hu⟩ | ⟨-, u, r, rfl, -⟩
  · exact hu.message_cases
  · exact .inl ⟨rfl, rfl, rfl⟩

/-- Settles O33: of the three cases, a session rules out TX_OPEN's and the hypotheses TX_CLOSE's. -/
theorem messageIsFixedDuringASession : Obligations.MessageIsFixedDuringASession := by
  refine ⟨fun i s t ha hclose h => ?_, fun i s t hopen hclose h => ?_⟩
  · rcases exec_message_cases h with ⟨hactive, hcount, htxs⟩ | ⟨hidle, -⟩ | hi
    · exact ⟨hactive.trans ha, hcount, fun k => by rw [htxs]⟩
    · exact Bool.noConfusion (ha.symm.trans hidle)
    · exact absurd hi hclose
  · rcases exec_message_cases h with ⟨-, hcount, htxs⟩ | ⟨-, m, hi⟩ | hi
    · exact ⟨hcount, fun k => by rw [htxs]⟩
    · exact absurd hi (hopen m)
    · exact absurd hi hclose

/-- From one unit to another, neither OVF nor EOS goes from 1 to 0 (R31, R32). -/
def RxUnit.KeepsFlags (rx u : RxUnit) : Prop :=
  (rx.ovf = true → u.ovf = true) ∧ (rx.eos = true → u.eos = true)

theorem RxUnit.KeepsFlags.of_eq {rx u : RxUnit} (ho : u.ovf = rx.ovf) (he : u.eos = rx.eos) :
    rx.KeepsFlags u :=
  ⟨ho.trans, he.trans⟩

theorem intake_keepsFlags {b : Byte} {rx u : RxUnit} {r : Response}
    (h : intake b rx = .ok (u, r)) : rx.KeepsFlags u := by
  rcases intake_cases h with ⟨-, rfl, -⟩ | ⟨-, -, rfl, -⟩ | ⟨-, -, -, rfl, -⟩
  · exact .of_eq rfl rfl
  · exact ⟨fun _ => RxUnit.overflow_ovf rx, fun _ => RxUnit.overflow_eos rx⟩
  · exact .of_eq rfl rfl

theorem applyStatus_keepsFlags (p : Params) (code : Word) (rx : RxUnit) :
    rx.KeepsFlags (applyStatus p code rx) := by
  rcases applyStatus_cases p code rx with e | ⟨-, -, -, e⟩ | ⟨-, -, -, e⟩ | ⟨-, -, -, e⟩ <;> rw [e]
  · exact .of_eq rfl rfl
  · exact ⟨id, fun _ => rfl⟩
  · exact .of_eq rfl rfl
  · exact .of_eq rfl rfl

theorem lineBit_keepsFlags {b : Bool} {rx u : RxUnit} {r : Response}
    (h : lineBit b rx = .ok (u, r)) : rx.KeepsFlags u := by
  rcases lineBit_cases h with ⟨-, -, rfl, -⟩ | ⟨-, -, rfl, -⟩ | ⟨-, -, rfl, -⟩ | ⟨-, -, -, hin⟩ |
    ⟨-, -, -, rfl, -⟩
  · exact .of_eq rfl rfl
  · exact .of_eq rfl rfl
  · exact .of_eq rfl rfl
  · exact intake_keepsFlags (rx := rx.toHunt) hin
  · exact .of_eq rfl rfl

/-- Within a session only RX_CLOSE clears OVF or EOS: RX_OPEN, which clears them too, then raises BUSY. -/
theorem RxEnds.keepsFlags {p : Params} {rx u : RxUnit} {i : Instr} {r : Response}
    (h : RxEnds p rx i u r) (ha : rx.active = true) (hclose : i ≠ .rxClose) :
    rx.KeepsFlags u := by
  cases h with
  | rdsr | busy | tooLarge | noSession | result => exact .of_eq rfl rfl
  | opened _ _ _ hidle _ => exact Bool.noConfusion (ha.symm.trans hidle)
  | acceptStatus v _ _ => exact applyStatus_keepsFlags p v rx
  | acceptData v _ _ _ _ hin => exact intake_keepsFlags hin
  | event code _ => exact applyStatus_keepsFlags p code rx
  | lineBit b _ _ _ hb => exact lineBit_keepsFlags hb
  | closed _ => exact absurd rfl hclose

/-- Settles O47: OVF needs EOS by the invariant, and `RxEnds.keepsFlags` covers the operations of RX. -/
theorem endOfStreamIsNeverCleared : Obligations.EndOfStreamIsNeverCleared := by
  refine ⟨fun s hs => hs.rx.ovf_eos, fun i s t ha hclose h => ?_⟩
  rcases exec_ends h with ⟨-, u, r, rfl, -⟩ | ⟨-, u, r, rfl, hu⟩
  · exact ⟨id, id⟩
  · exact hu.keepsFlags ha hclose

end Sys2Proof.Machine

/-! ## Every update of the transmit unit keeps it legal (10_state.md R23 to R26, 20_memory.md R50, R60) -/

namespace Sys2Proof.Machine

/-- Within a session a claim about the idle unit says nothing. -/
theorem idle_vacuous {active : Bool} {P : Prop} (ha : active = true) (hidle : active = false) : P :=
  Bool.noConfusion (ha.symm.trans hidle)

theorem Memory.isSome_read_write {m : Memory} {k : Nat} (h : (m.read k).isSome) (a : Nat) (v : Byte) :
    ((m.write a v).read k).isSome := by
  rw [Memory.read_write]
  split
  · rfl
  · exact h

theorem Memory.isSome_read_writeAll (m : Memory) (bs : List Byte) {k : Nat} (hk : k < bs.length) :
    ((m.writeAll 0 bs).read k).isSome := by
  rw [Memory.read_writeAll, if_pos (by omega), List.getElem?_eq_getElem (by omega),
    Option.isSome_some]

@[simp] theorem TxUnit.opened_strict_txs (m : List Byte) (u : TxUnit) :
    (u.opened .strict m).txs = u.txs.writeAll 0 m := rfl

theorem TxUnit.opened_txs_wf {u : TxUnit} (h : u.txs.wf) (bd : Boundary) (m : List Byte) :
    (u.opened bd m).txs.wf := by
  cases bd with
  | strict => exact Memory.wf_writeAll h 0 m
  | reference => exact Memory.wf_write (Memory.wf_writeAll h 0 m) _ _

/-- The highest index a TX_OPEN writes is that of REFERENCE's drawn byte, the message's length (R100). -/
theorem TxUnit.mem_opened_txs {u : TxUnit} {bd : Boundary} {m : List Byte} {c : Host.Cell}
    (h : c ∈ (u.opened bd m).txs) : c.1 ≤ m.length ∨ c ∈ u.txs := by
  cases bd with
  | strict => exact (Memory.mem_writeAll h).imp_left fun hc => by omega
  | reference =>
    rcases Memory.mem_write h with hc | hc
    · exact .inl hc.le
    · exact (Memory.mem_writeAll hc).imp_left fun hc => by omega

theorem TxUnit.isSome_read_opened_txs (u : TxUnit) (bd : Boundary) {m : List Byte} {k : Nat}
    (hk : k < m.length) : ((u.opened bd m).txs.read k).isSome := by
  have hmsg := Memory.isSome_read_writeAll u.txs m hk
  cases bd with
  | strict => exact hmsg
  | reference => exact Memory.isSome_read_write hmsg _ _

/-- A TX_OPEN with a length that R100 accepts leaves TX legal. -/
theorem TxUnit.Legal.opened {p : Params} {tx : TxUnit} (h : tx.Legal p) {m : List Byte}
    (hpos : 1 ≤ m.length) (hmax : m.length ≤ p.txMaxLen) : (tx.opened p.boundary m).Legal p where
  txs_wf := TxUnit.opened_txs_wf h.txs_wf _ _
  txs_range c hc := (TxUnit.mem_opened_txs hc).elim (fun hle => hle.trans hmax) (h.txs_range c)
  phase_le := by simp
  idle := by simp
  count_range _ := by rw [TxUnit.opened_byteCount]; exact ⟨hpos, hmax⟩
  cursor_strict := by simp
  cursor_reference := by simp
  written _ k hk := TxUnit.isSome_read_opened_txs tx _ (by simpa using hk)
  written_past hb _ := by simp [hb]

/-- Phase 9 is the last of a frame; before it only the phase moves (R101). -/
theorem TxUnit.advance_cases (u : TxUnit) :
    (u.bitPhase = 9#4 ∧ u.advance = { u with bitPhase := 0#4, byteCursor := u.byteCursor + 1 }) ∨
      (u.bitPhase ≠ 9#4 ∧ u.advance = { u with bitPhase := u.bitPhase + 1#4 }) := by
  unfold TxUnit.advance
  split
  · exact .inl ⟨by bv_omega, rfl⟩
  · exact .inr ⟨by bv_omega, rfl⟩

/-- Sending a bit leaves TX legal: a byte was left to frame, so the cursor has room for one more step. -/
theorem TxUnit.Legal.advance {p : Params} {tx : TxUnit} (h : tx.Legal p) (ha : tx.active = true)
    (hf : framing p.boundary tx = true) : tx.advance.Legal p := by
  have hstrict : p.boundary = .strict → tx.byteCursor < tx.byteCount := fun hb => by
    simpa [framing, hb] using hf
  have hreference : p.boundary = .reference → tx.byteCursor ≤ tx.byteCount := fun hb => by
    simpa [framing, hb] using hf
  rcases tx.advance_cases with ⟨-, e⟩ | ⟨hphase, e⟩ <;> rw [e]
  · exact { h with
      phase_le := (by decide : 0#4 ≤ 9#4)
      idle := idle_vacuous ha
      cursor_strict := fun hb _ => ⟨hstrict hb, fun _ => rfl⟩
      cursor_reference := fun hb _ => ⟨Nat.succ_le_succ (hreference hb), fun _ => rfl⟩ }
  · have hle := h.phase_le
    exact { h with
      phase_le := by bv_omega
      idle := idle_vacuous ha
      cursor_strict := fun hb _ =>
        ⟨(hstrict hb).le, fun hend => absurd hend (hstrict hb).ne⟩
      cursor_reference := fun hb _ =>
        ⟨Nat.le_succ_of_le (hreference hb),
          fun hend => absurd hend (Nat.lt_succ_of_le (hreference hb)).ne⟩ }

theorem TxUnit.closed_legal (p : Params) (tx : TxUnit) : tx.closed.Legal p where
  txs_wf := Memory.wf_nil
  txs_range c hc := absurd hc List.not_mem_nil
  phase_le := (by decide : 0#4 ≤ 9#4)
  idle _ := ⟨rfl, rfl, rfl⟩
  count_range := nofun
  cursor_strict := nofun
  cursor_reference := nofun
  written := nofun
  written_past := nofun

theorem TxEnds.legal {p : Params} {tx u : TxUnit} {i : Instr} {r : Response}
    (hu : TxEnds p tx i u r) (h : tx.Legal p) : u.Legal p := by
  cases hu with
  | rdsr | busy | badLength | idleNoSession | idleDone | closeNoSession => exact h
  | opened m _ hpos hmax => exact h.opened hpos hmax
  | sent b ha hf _ => exact h.advance ha hf
  | closed _ => exact tx.closed_legal p

end Sys2Proof.Machine

/-! ## Every update of the receive unit keeps it legal (10_state.md R28 to R34, 20_memory.md R50, R60) -/

namespace Sys2Proof.Machine

theorem RxUnit.reset_legal : RxUnit.reset.Legal where
  rxd_wf := Memory.wf_nil
  rxd_range c hc := absurd hc List.not_mem_nil
  idle _ := rfl
  capacity_range := nofun
  cursor_le := nofun
  written _ hk := absurd hk (Nat.not_lt_zero _)
  eos_iff := by decide
  ovf_eos := nofun
  lost_cont := nofun
  hunt_clear _ := ⟨rfl, rfl⟩
  data_range := nofun

theorem RxUnit.closed_eq_reset : RxUnit.closed = RxUnit.reset := rfl

/-- CAP = 0 asks for RX_MAX_CAPACITY, so a session always has room for a byte (R83). -/
theorem requestedCapacity_pos (cap : BitVec 30) : 1 ≤ requestedCapacity cap := by
  unfold requestedCapacity
  split
  · decide
  · bv_omega

theorem RxUnit.opened_capacity_toNat {cap : Nat} (hmax : cap ≤ Config.rxMaxCapacity)
    (c e : Bool) (rx : RxUnit) : (rx.opened c e cap).capacity.toNat = cap :=
  Nat.mod_eq_of_lt (hmax.trans_lt (by decide))

section
variable {rx : RxUnit} (h : rx.Legal)
include h

/-- An RX_OPEN with a capacity that R130 accepts leaves RX legal. -/
theorem RxUnit.Legal.opened {cap : Nat} (hpos : 1 ≤ cap) (hmax : cap ≤ Config.rxMaxCapacity)
    (c e : Bool) : (rx.opened c e cap).Legal where
  rxd_wf := h.rxd_wf
  rxd_range := h.rxd_range
  idle := nofun
  capacity_range _ := by rw [RxUnit.opened_capacity_toNat hmax]; exact ⟨hpos, hmax⟩
  cursor_le _ := Nat.zero_le _
  written _ hk := absurd hk (Nat.not_lt_zero _)
  eos_iff := by simp [RxUnit.opened]
  ovf_eos := nofun
  lost_cont := nofun
  hunt_clear _ := ⟨rfl, rfl⟩
  data_range := nofun

variable (ha : rx.active = true)
include ha

theorem RxUnit.Legal.toHunt : rx.toHunt.Legal :=
  { h with
    idle := idle_vacuous ha
    hunt_clear := fun _ => ⟨rfl, rfl⟩
    data_range := nofun }

theorem RxUnit.Legal.startFrame : rx.startFrame.Legal :=
  { h with
    idle := idle_vacuous ha
    hunt_clear := nofun
    data_range := fun _ => ⟨(by decide : 0#4 ≤ 8#4), fun _ _ => BitVec.getLsbD_zero⟩ }

/-- A data bit goes to the lowest position not yet taken, so those above it stay 0 (R34, R181). -/
theorem RxUnit.Legal.takeBit (hdata : rx.rxdState = .data) (hcount : rx.rxdCount < 8#4) (b : Bool) :
    (rx.takeBit b).Legal := by
  have hlt : rx.rxdCount.toNat < 8 := hcount
  have hnext : (rx.rxdCount + 1#4).toNat = rx.rxdCount.toNat + 1 := by bv_omega
  exact { h with
    idle := idle_vacuous ha
    hunt_clear := fun hhunt => DeframerState.noConfusion (hdata.symm.trans hhunt)
    data_range := fun _ => by
      refine ⟨by rw [RxUnit.takeBit_rxdCount]; bv_omega, fun i hi => ?_⟩
      rw [RxUnit.takeBit_rxdCount, hnext] at hi
      rw [RxUnit.takeBit_rxdShift, getLsbD_putBit _ _ _ hlt, if_neg (by omega)]
      exact (h.data_range hdata).2 i (by omega) }

/-- A stored byte leaves RX legal: below CAPACITY the cursor has an index that exists to write and room for one more. -/
theorem RxUnit.Legal.store (hroom : rx.writeCursor < rx.capacity)
    (hmax : rx.writeCursor.toNat < Config.rxMaxCapacity) (b : Byte) : (rx.store b).Legal := by
  have hcursor : (rx.writeCursor + 1#17).toNat = rx.writeCursor.toNat + 1 := by
    have : rx.writeCursor.toNat < 65536 := hmax
    bv_omega
  exact { h with
    rxd_wf := Memory.wf_write h.rxd_wf _ _
    rxd_range := fun c hc => by
      rcases Memory.mem_write hc with hnew | hold
      · exact hnew ▸ hmax
      · exact h.rxd_range c hold
    idle := idle_vacuous ha
    cursor_le := fun _ => by
      rw [RxUnit.store_writeCursor, RxUnit.store_capacity]
      bv_omega
    written := fun k hk => by
      rw [RxUnit.store_writeCursor, hcursor] at hk
      rw [RxUnit.store_rxd, Memory.read_write]
      split
      · rfl
      · exact h.written k (by omega) }

/-- The end of the stream sets EOS with STREAM_ENDED, whatever becomes of OVF (R31, R32). -/
theorem RxUnit.Legal.endStream (ovf : Bool) :
    RxUnit.Legal { rx with ovf := ovf, eos := true, state := .streamEnded } :=
  { h with
    idle := idle_vacuous ha
    eos_iff := by simp
    ovf_eos := fun _ => rfl
    lost_cont := nofun }

/-- Before the end of the stream the carrier state may change among the others, CARRIER_LOST with CONTINUE (R160). -/
theorem RxUnit.Legal.setState (hopen : rx.state ≠ .streamEnded) {c : CarrierState}
    (hc : c ≠ .streamEnded) (hlost : c = .carrierLost → rx.cont = true) :
    RxUnit.Legal { rx with state := c } :=
  { h with
    idle := idle_vacuous ha
    eos_iff := ⟨fun heos => absurd (h.eos_iff.1 heos) hopen, fun hend => absurd hend hc⟩
    lost_cont := hlost }

theorem RxUnit.Legal.applyStatus (p : Params) (code : Word) : (applyStatus p code rx).Legal := by
  rcases applyStatus_cases p code rx with e | ⟨-, -, -, e⟩ | ⟨hopen, -, hcont, e⟩ | ⟨hopen, -, -, e⟩ <;>
    rw [e]
  · exact h
  · exact (h.toHunt ha).endStream ha rx.ovf
  · exact (h.toHunt ha).setState ha hopen nofun fun _ => hcont
  · exact h.setState ha hopen nofun nofun

theorem intake_legal {b : Byte} {u : RxUnit} {r : Response} (hin : intake b rx = .ok (u, r)) :
    u.Legal := by
  rcases intake_cases hin with ⟨-, rfl, -⟩ | ⟨-, -, rfl, -⟩ | ⟨-, hroom, hmax, rfl, -⟩
  · exact h
  · exact h.endStream ha true
  · exact h.store ha hroom hmax b

theorem lineBit_legal {b : Bool} {u : RxUnit} {r : Response} (hb : lineBit b rx = .ok (u, r)) :
    u.Legal := by
  rcases lineBit_cases hb with ⟨-, -, rfl, -⟩ | ⟨-, -, rfl, -⟩ | ⟨hdata, hcount, rfl, -⟩ |
    ⟨-, -, -, hin⟩ | ⟨-, -, -, rfl, -⟩
  · exact h
  · exact h.startFrame ha
  · exact h.takeBit ha hdata hcount b
  · exact intake_legal (h.toHunt ha) ha hin
  · exact h.toHunt ha

end

theorem RxEnds.legal {p : Params} {rx u : RxUnit} {i : Instr} {r : Response}
    (hu : RxEnds p rx i u r) (h : rx.Legal) : u.Legal := by
  cases hu with
  | rdsr | busy | tooLarge | noSession | result => exact h
  | opened c e k _ hmax => exact h.opened (requestedCapacity_pos k) hmax c e
  | acceptStatus v ha _ => exact h.applyStatus ha p v
  | acceptData v _ _ ha _ hin => exact intake_legal h ha hin
  | event code ha => exact h.applyStatus ha p code
  | lineBit b _ _ ha hb => exact lineBit_legal h ha hb
  | closed _ => exact RxUnit.closed_eq_reset ▸ RxUnit.reset_legal

end Sys2Proof.Machine

/-! ## A step keeps a state legal -/

namespace Sys2Proof

/-- A command word of a stream that keeps to R79, followed by what it calls for, leaves a stream that does. -/
theorem decodeWord_streamOk {w : CommandWord} {items : List Item}
    (h : streamOk (dataLength w) items = true) :
    (∀ i rest, decodeWord w items = .instr i rest → streamOk 0 rest = true) ∧
      ∀ v rest, decodeWord w items = .illegal v rest → streamOk 0 rest = true := by
  unfold decodeWord
  cases hd : decodeHead w with
  | whole j =>
    obtain ⟨-, -, -, -, hlen⟩ := decodeHead_whole hd
    rw [hlen] at h
    refine ⟨fun i rest e => ?_, nofun⟩
    cases e
    exact h
  | opensMessage n =>
    obtain ⟨-, -, hlen⟩ := decodeHead_opens hd
    rw [hlen] at h
    cases ht : takeData items n.toNat with
    | complete m after =>
      refine ⟨fun i rest e => ?_, fun v rest e => ?_⟩
      · simp only [ht, DataPhase.toDecoded, Decoded.instr.injEq] at e
        exact e.2 ▸ (takeData_streamOk h).2 m after ht
      · simp [ht, DataPhase.toDecoded] at e
    | short => simp [ht, DataPhase.toDecoded]
    | broken => simp [ht, DataPhase.toDecoded]
  | illegal =>
    rw [decodeHead_illegal hd] at h
    refine ⟨nofun, fun v rest e => ?_⟩
    cases e
    exact h

/-- What is left of a stream that keeps to R79 keeps to it, once its front command is taken. -/
theorem decode_streamOk {items : List Item} (h : streamOk 0 items = true) :
    (∀ i rest, decode items = .instr i rest → streamOk 0 rest = true) ∧
      ∀ v rest, decode items = .illegal v rest → streamOk 0 rest = true := by
  cases items with
  | nil => exact ⟨nofun, nofun⟩
  | cons c items =>
    cases c with
    | byte b => exact ⟨nofun, nofun⟩
    | word w => exact decodeWord_streamOk h

namespace Machine

/-- Everything a step that goes on can have done. -/
theorem step_cases {s t : State} (h : step s = .next t) :
    (∃ i rest, decode s.commands = .instr i rest ∧ exec i (s.take rest) = .next t) ∨
      (∃ w rest, decode s.commands = .illegal w rest ∧
        t = (s.take rest).plus (raise .illegalOp w [] [])) ∨
      (decode s.commands = .incomplete ∧ t = s) := by
  unfold step at h
  cases hd : decode s.commands <;> simp only [hd] at h
  case instr i rest => exact .inl ⟨i, rest, rfl, h⟩
  case illegal w rest => cases h; exact .inr (.inl ⟨w, rest, rfl, rfl⟩)
  case incomplete => cases h; exact .inr (.inr ⟨rfl, rfl⟩)
  case strayDataByte => cases h
  case wordInDataPhase => cases h

theorem State.Legal.take {s : State} (h : s.Legal) {rest : List Item}
    (hrest : streamOk 0 rest = true) : (s.take rest).Legal :=
  { h with stream := hrest }

theorem State.Legal.plus {s : State} (h : s.Legal) (r : Response) : (s.plus r).Legal :=
  { h with }

theorem exec_legal {i : Instr} {s t : State} (hs : s.Legal) (h : exec i s = .next t) : t.Legal := by
  rcases exec_ends h with ⟨-, u, r, rfl, hu⟩ | ⟨-, u, r, rfl, hu⟩
  · exact { hs with tx := hu.legal hs.tx }
  · exact { hs with rx := hu.legal hs.rx }

/-- Settles O4, by the cases of a step; an operation keeps legality unit by unit. -/
theorem stepKeepsStatesLegal : Obligations.StepKeepsStatesLegal := by
  intro s t hs h
  rcases step_cases h with ⟨i, rest, hd, he⟩ | ⟨w, rest, hd, rfl⟩ | ⟨-, rfl⟩
  · exact exec_legal (hs.take ((decode_streamOk hs.stream).1 i rest hd)) he
  · exact (hs.take ((decode_streamOk hs.stream).2 w rest hd)).plus _
  · exact hs

theorem defaultParams_ok : defaultParams.Ok := ⟨by decide, by decide, by decide, by decide⟩

/-- Settles O3: reset leaves TX as TX_CLOSE does and RX as RX_CLOSE does (R39, R102, R134). -/
theorem resetIsLegal : Obligations.ResetIsLegal where
  params := defaultParams_ok
  tx := TxUnit.closed_legal defaultParams .reset
  rx := RxUnit.reset_legal
  stream := rfl

end Machine
end Sys2Proof

/-! ## What TX_NEXT_BIT and the intake do at an index of a byte space (20_memory.md R50, R60) -/

namespace Sys2Proof.Machine

/-- In a session with a byte left to frame, TX_NEXT_BIT sends the current bit (R101). -/
theorem exec_txNextBit_framing {s : State} (ha : s.tx.active = true) (hf : FramingHolds s) :
    exec .txNextBit s = finishTx s (sendBit s.params s.tx) := by
  have hf := (framing_iff_FramingHolds s).2 hf
  simp only [exec, execTxNextBit, txNextBit, inTxSession, ha, hf, if_true]

/-- At a data position the current bit is one of the byte at the cursor (R70, R101). -/
theorem currentBit_data (p : Params) {tx : TxUnit} (h1 : 1 ≤ tx.bitPhase.toNat)
    (h8 : tx.bitPhase.toNat ≤ 8) :
    currentBit p tx =
      (readTxs p tx tx.byteCursor).map fun b => b.getLsbD (tx.bitPhase.toNat - 1) := by
  have hstart : tx.bitPhase ≠ 0#4 := by bv_omega
  have hstop : tx.bitPhase ≠ 9#4 := by bv_omega
  have hbit (b : Byte) : maskedBit b tx.bitPhase.toNat = b.getLsbD (tx.bitPhase.toNat - 1) := by
    rw [maskedBit_eq_frameBit b h1 h8, frameBit, if_neg (by omega), if_neg (by omega)]
  simp only [currentBit, hstart, hstop, if_false, hbit]

theorem readTxs_of_le {p : Params} (tx : TxUnit) {i : Nat} (h : i ≤ p.txMaxLen) :
    readTxs p tx i = .ok (tx.byteAt i) :=
  if_pos h

theorem readTxs_absent {p : Params} (tx : TxUnit) {i : Nat} (h : p.txMaxLen < i) :
    readTxs p tx i = .error (.txsIndexAbsent i) :=
  if_neg (Nat.not_le.2 h)

theorem TxUnit.byteAt_unwritten {tx : TxUnit} {i : Nat} (h : tx.txs.read i = none) :
    tx.byteAt i = Config.unwrittenTxs i := by
  rw [TxUnit.byteAt, h, Option.getD_none]

/-- Before the stop bit, only the phase moves. -/
theorem TxUnit.advance_of_phase_le {tx : TxUnit} (h8 : tx.bitPhase.toNat ≤ 8) :
    tx.advance = { tx with bitPhase := BitVec.ofNat 4 (tx.bitPhase.toNat + 1) } := by
  rw [TxUnit.advance_eq tx (by omega), Nat.mod_eq_of_lt (by omega), Nat.div_eq_of_lt (by omega),
    Nat.add_zero]

/-- Settles O26: at a data position the bit comes from the read of TXS, which answers or faults by R50. -/
theorem txNextBitOutsideTheWrittenBytes : Obligations.TxNextBitOutsideTheWrittenBytes := by
  rintro s p ha hf rfl h1 h8
  have hexec := exec_txNextBit_framing ha hf
  rw [sendBit, currentBit_data _ h1 h8] at hexec
  refine ⟨fun hnone hle => ?_, fun habsent => ?_⟩
  · rw [hexec, readTxs_of_le _ hle, TxUnit.byteAt_unwritten hnone, TxUnit.advance_of_phase_le h8]
    rfl
  · rw [hexec, readTxs_absent _ habsent]
    rfl

/-- In a session RX_ACCEPT of a data symbol is the intake of its low byte (R131). -/
theorem exec_rxAccept_data {s : State} {v : Word} (ha : s.rx.active = true) (hv : 0 ≤ v.toInt) :
    exec (.rxAccept v) s = finishRx s (intake (symbolByte v) s.rx) := by
  have hdata : isStatusCode v = false := decide_eq_false (not_lt.2 hv)
  simp only [exec, execRxAccept, rxAccept, inRxSession, ha, hdata, if_true, Bool.false_eq_true,
    if_false]

/-- A stop bit of 1 hands the frame's byte to the intake, with the deframer back in HUNT (R181). -/
theorem lineBit_stopBit {rx : RxUnit} (hdata : rx.rxdState = .data) (hcount : 8#4 ≤ rx.rxdCount) :
    lineBit true rx = intake rx.rxdShift rx.toHunt := by
  simp only [lineBit, hdata, BitVec.not_lt.2 hcount, judgeStopBit, if_true, if_false]

theorem exec_rxResult (s : State) : exec .rxResult s = finishRx s (rxResult s.rx) := rfl

/-- In a session RX_RESULT gives the count and the bytes it reads, and leaves the unit as it was (R133). -/
theorem rxResult_active {rx : RxUnit} (ha : rx.active = true) :
    rxResult rx = (readRxd rx rx.writeCursor.toNat).map fun bs =>
      (rx, answer (.word (rx.writeCursor.setWidth 32) :: bs.map .byte) []) :=
  if_pos ha

theorem readRxd_of_le (rx : RxUnit) {n : Nat} (h : n ≤ Config.rxMaxCapacity) :
    readRxd rx n = .ok ((List.range n).map rx.byteAt) :=
  if_pos h

theorem readRxd_absent (rx : RxUnit) {n : Nat} (h : Config.rxMaxCapacity < n) :
    readRxd rx n = .error (.rxdIndexAbsent Config.rxMaxCapacity) :=
  if_neg (Nat.not_le.2 h)

theorem RxUnit.byteAt_unwritten {rx : RxUnit} {i : Nat} (h : rx.rxd.read i = none) :
    rx.byteAt i = Config.unwrittenRxd i := by
  rw [RxUnit.byteAt, h, Option.getD_none]

/-- Before the end of the stream, an intake with a free slot at an index that does not exist faults (R50). -/
theorem intake_absent (b : Byte) {rx : RxUnit} (he : rx.eos = false)
    (hroom : rx.writeCursor < rx.capacity) (habsent : Config.rxMaxCapacity ≤ rx.writeCursor.toNat) :
    intake b rx = .error (.rxdIndexAbsent rx.writeCursor.toNat) := by
  rw [intake, he, if_neg Bool.false_ne_true, if_neg (BitVec.not_le.2 hroom),
    if_neg (Nat.not_lt.2 habsent)]

/-- Settles O36: both ways to the intake fault with it, and RX_RESULT follows its read of RXD. -/
theorem rxdOutsideTheWrittenBytes : Obligations.RxdOutsideTheWrittenBytes := by
  refine ⟨fun s v ha hv he hroom habsent => ?_, fun s ha hdata hcount he hroom habsent => ?_,
    fun s ha habsent => ?_, fun s k ha hle hk hnone => ?_⟩
  · rw [exec_rxAccept_data ha hv, intake_absent _ he hroom habsent]
    rfl
  · rw [exec_rxLinebit_active true ha, lineBit_stopBit hdata hcount,
      intake_absent (rx := s.rx.toHunt) _ he hroom habsent]
    rfl
  · rw [exec_rxResult, rxResult_active ha, readRxd_absent _ habsent]
    rfl
  · refine ⟨s.rx.writeCursor.setWidth 32, (List.range s.rx.writeCursor.toNat).map s.rx.byteAt, ?_, ?_⟩
    · rw [exec_rxResult, rxResult_active ha, readRxd_of_le _ hle]
      rfl
    · rw [List.getElem?_map, List.getElem?_range hk, Option.map_some, RxUnit.byteAt_unwritten hnone]

end Sys2Proof.Machine

/-! ## Delivered bytes (20_memory.md R52, R57, R59) -/

namespace Sys2Proof.Machine

/-- From one unit to another RXD and the cursor stay, or one byte is written at the cursor, below CAPACITY, and the
cursor moves on by one. -/
def RxUnit.KeepsDelivered (rx u : RxUnit) : Prop :=
  (u.writeCursor = rx.writeCursor ∧ ∀ k, u.rxd.read k = rx.rxd.read k) ∨
    (rx.writeCursor < rx.capacity ∧
      u.writeCursor.toNat = rx.writeCursor.toNat + 1 ∧
      (∃ b, u.rxd.read rx.writeCursor.toNat = some b) ∧
      ∀ k, k ≠ rx.writeCursor.toNat → u.rxd.read k = rx.rxd.read k)

theorem RxUnit.KeepsDelivered.of_eq {rx u : RxUnit} (hc : u.writeCursor = rx.writeCursor)
    (hd : u.rxd = rx.rxd) : rx.KeepsDelivered u :=
  .inl ⟨hc, fun _ => by rw [hd]⟩

/-- The cursor counts up to RX_MAX_CAPACITY without wrapping (R6, W_RX). -/
theorem RxUnit.store_writeCursor_toNat {rx : RxUnit}
    (hmax : rx.writeCursor.toNat < Config.rxMaxCapacity) (b : Byte) :
    (rx.store b).writeCursor.toNat = rx.writeCursor.toNat + 1 := by
  have hlt : rx.writeCursor.toNat < 65536 := hmax
  rw [RxUnit.store_writeCursor]
  bv_omega

theorem intake_keepsDelivered {b : Byte} {rx u : RxUnit} {r : Response}
    (h : intake b rx = .ok (u, r)) : rx.KeepsDelivered u := by
  rcases intake_cases h with ⟨-, rfl, -⟩ | ⟨-, -, rfl, -⟩ | ⟨-, hroom, hmax, rfl, -⟩
  · exact .of_eq rfl rfl
  · exact .of_eq rfl rfl
  · exact .inr ⟨hroom, RxUnit.store_writeCursor_toNat hmax b, ⟨b, Memory.read_write_same _ _ _⟩,
      fun _ => Memory.read_write_other _ b⟩

theorem applyStatus_keepsDelivered (p : Params) (code : Word) (rx : RxUnit) :
    rx.KeepsDelivered (applyStatus p code rx) := by
  rcases applyStatus_cases p code rx with e | ⟨-, -, -, e⟩ | ⟨-, -, -, e⟩ | ⟨-, -, -, e⟩ <;> rw [e]
  all_goals exact .of_eq rfl rfl

theorem lineBit_keepsDelivered {b : Bool} {rx u : RxUnit} {r : Response}
    (h : lineBit b rx = .ok (u, r)) : rx.KeepsDelivered u := by
  rcases lineBit_cases h with ⟨-, -, rfl, -⟩ | ⟨-, -, rfl, -⟩ | ⟨-, -, rfl, -⟩ | ⟨-, -, -, hin⟩ |
    ⟨-, -, -, rfl, -⟩
  · exact .of_eq rfl rfl
  · exact .of_eq rfl rfl
  · exact .of_eq rfl rfl
  · exact intake_keepsDelivered (rx := rx.toHunt) hin
  · exact .of_eq rfl rfl

/-- Within a session only RX_CLOSE drops delivered bytes: RX_OPEN, which resets the cursor, then raises BUSY. -/
theorem RxEnds.keepsDelivered {p : Params} {rx u : RxUnit} {i : Instr} {r : Response}
    (h : RxEnds p rx i u r) (ha : rx.active = true) (hclose : i ≠ .rxClose) :
    rx.KeepsDelivered u := by
  cases h with
  | rdsr | busy | tooLarge | noSession | result => exact .of_eq rfl rfl
  | opened _ _ _ hidle _ => exact idle_vacuous ha hidle
  | acceptStatus v _ _ => exact applyStatus_keepsDelivered p v rx
  | acceptData v _ _ _ _ hin => exact intake_keepsDelivered hin
  | event code _ => exact applyStatus_keepsDelivered p code rx
  | lineBit b _ _ _ hb => exact lineBit_keepsDelivered hb
  | closed _ => exact absurd rfl hclose

/-- Settles O43: TX's operations leave RX alone, and `RxEnds.keepsDelivered` covers those of RX. -/
theorem deliveredBytesNeverChange : Obligations.DeliveredBytesNeverChange := by
  intro i s t ha hclose h
  rcases exec_ends h with ⟨-, u, r, rfl, -⟩ | ⟨-, u, r, rfl, hu⟩
  · exact RxUnit.KeepsDelivered.of_eq rfl rfl
  · exact hu.keepsDelivered ha hclose

theorem RxUnit.Legal.writeCursor_le {rx : RxUnit} (h : rx.Legal) (ha : rx.active = true) :
    rx.writeCursor.toNat ≤ Config.rxMaxCapacity :=
  (BitVec.le_def.1 (h.cursor_le ha)).trans (h.capacity_range ha).2

/-- RX_RESULT of a legal unit answers, with or without a session, and leaves the unit as it was (R133). -/
theorem RxUnit.Legal.rxResult_ok {rx : RxUnit} (h : rx.Legal) : ∃ r, rxResult rx = .ok (rx, r) := by
  cases ha : rx.active with
  | false => exact ⟨_, by rw [rxResult, inRxSession, ha, if_neg Bool.false_ne_true]⟩
  | true => exact ⟨_, by rw [rxResult_active ha, readRxd_of_le _ (h.writeCursor_le ha)]; rfl⟩

/-- An RX_RESULT that leaves the unit as it was only adds its response. -/
theorem exec_rxResult_plus {s : State} {r : Response} (h : rxResult s.rx = .ok (s.rx, r)) :
    exec .rxResult s = .next (s.plus r) := by
  rw [exec_rxResult, h, finishRx, State.endRx_self]

/-- Settles O39: RX_RESULT's response is a function of the unit, which it leaves alone; of the intake's three cases only
the one that stores a byte answers OK. -/
theorem rxResultIsIdempotentAndAcceptIsNot : Obligations.RxResultIsIdempotentAndAcceptIsNot := by
  refine ⟨fun s hs => ?_, fun s t v ha hv he h hresp => ?_⟩
  · obtain ⟨r, hr⟩ := hs.rx.rxResult_ok
    have hfirst : exec .rxResult s = .next (s.plus r) := exec_rxResult_plus hr
    have hsecond : exec .rxResult (s.plus r) = .next ((s.plus r).plus r) := exec_rxResult_plus hr
    exact ⟨r, by simp only [execAll, andThen, hfirst, hsecond]⟩
  · rw [exec_rxAccept_data ha hv] at h
    obtain ⟨u, r, hin, rfl⟩ := finishRx_next h
    obtain rfl : r = plainOk := List.singleton_inj.1 (List.append_cancel_left hresp)
    rcases intake_cases hin with ⟨hend, -⟩ | ⟨-, -, -, hraise⟩ | ⟨-, -, hmax, rfl, -⟩
    · exact Bool.noConfusion (he.symm.trans hend)
    · cases hraise
    · exact RxUnit.store_writeCursor_toNat hmax _

end Sys2Proof.Machine

/-! ## From a legal state every step goes on (20_memory.md R59, 60_exceptions.md R200) -/

namespace Sys2Proof

/-- A stream that keeps to R79 is never refused. -/
theorem decode_not_refused {items : List Item} (h : streamOk 0 items = true) :
    decode items ≠ .strayDataByte ∧ decode items ≠ .wordInDataPhase := by
  match items, h with
  | [], _ => exact ⟨nofun, nofun⟩
  | .byte _ :: _, h => cases h
  | .word w :: rest, h =>
    change decodeWord w rest ≠ _ ∧ decodeWord w rest ≠ _
    unfold decodeWord
    cases hd : decodeHead w with
    | whole i => exact ⟨nofun, nofun⟩
    | illegal => exact ⟨nofun, nofun⟩
    | opensMessage n =>
      obtain ⟨-, -, hlen⟩ := decodeHead_opens hd
      have hrest : streamOk n.toNat rest = true := hlen ▸ h
      cases ht : takeData rest n.toNat with
      | complete m after => simp [ht, DataPhase.toDecoded]
      | short => simp [ht, DataPhase.toDecoded]
      | broken => exact absurd ht (takeData_streamOk hrest).1

namespace Machine

/-- A byte left to frame lies in TXS: under REFERENCE its index may be BYTE_COUNT itself (R25, R50). -/
theorem TxUnit.Legal.byteCursor_le_of_framing {p : Params} {tx : TxUnit} (h : tx.Legal p)
    (hf : framing p.boundary tx = true) : tx.byteCursor ≤ p.txMaxLen := by
  have hcount := h.byteCount_le
  cases hb : p.boundary with
  | strict =>
    have hlt : tx.byteCursor < tx.byteCount := by simpa [framing, hb] using hf
    omega
  | reference =>
    have hle : tx.byteCursor ≤ tx.byteCount := by simpa [framing, hb] using hf
    omega

theorem TxUnit.Legal.currentBit_ok {p : Params} {tx : TxUnit} (h : tx.Legal p)
    (hf : framing p.boundary tx = true) : ∃ b, currentBit p tx = .ok b := by
  unfold currentBit
  split
  · exact ⟨_, rfl⟩
  · split
    · exact ⟨_, rfl⟩
    · exact ⟨_, by rw [readTxs_of_le _ (h.byteCursor_le_of_framing hf)]; rfl⟩

/-- A legal unit has no free slot at an index that does not exist, so its intake ends without a fault (R28, R50). -/
theorem RxUnit.Legal.intake_ok {rx : RxUnit} (h : rx.Legal) (ha : rx.active = true) (b : Byte) :
    ∃ o, intake b rx = .ok o := by
  cases hin : intake b rx with
  | ok o => exact ⟨o, rfl⟩
  | error f =>
    obtain ⟨-, hroom, habsent, -⟩ := intake_error hin
    have hcap := (h.capacity_range ha).2
    bv_omega

theorem RxUnit.Legal.lineBit_ok {rx : RxUnit} (h : rx.Legal) (ha : rx.active = true) (b : Bool) :
    ∃ o, lineBit b rx = .ok o := by
  unfold lineBit judgeStopBit
  cases rx.rxdState with
  | hunt => cases b <;> exact ⟨_, rfl⟩
  | data =>
    by_cases hcount : rx.rxdCount < 8#4
    · exact ⟨_, if_pos hcount⟩
    · simp only [hcount, if_false]
      cases b with
      | false => exact ⟨_, rfl⟩
      | true => exact (h.toHunt ha).intake_ok ha _

/-- A per-session TX operation ends without a fault if its body does in a session. -/
theorem inTxSession_ok {tx : TxUnit} (x : Word) (vs : List Value) {body : TxResult}
    (h : tx.active = true → ∃ o, body = .ok o) : ∃ o, inTxSession tx x vs body = .ok o := by
  unfold inTxSession
  split
  · exact h ‹_›
  · exact ⟨_, rfl⟩

/-- A per-session RX operation ends without a fault if its body does in a session. -/
theorem inRxSession_ok {rx : RxUnit} (x : Word) {body : RxResult}
    (h : rx.active = true → ∃ o, body = .ok o) : ∃ o, inRxSession rx x body = .ok o := by
  unfold inRxSession
  split
  · exact h ‹_›
  · exact ⟨_, rfl⟩

theorem finishTx_ok (s : State) {o : TxResult} (h : ∃ x, o = .ok x) :
    ∃ t, finishTx s o = .next t := by
  obtain ⟨x, rfl⟩ := h
  exact ⟨_, rfl⟩

theorem finishRx_ok (s : State) {o : RxResult} (h : ∃ x, o = .ok x) :
    ∃ t, finishRx s o = .next t := by
  obtain ⟨x, rfl⟩ := h
  exact ⟨_, rfl⟩

theorem TxUnit.Legal.txNextBit_ok {p : Params} {tx : TxUnit} (h : tx.Legal p) :
    ∃ o, txNextBit p tx = .ok o := by
  refine inTxSession_ok _ _ fun _ => ?_
  split
  · obtain ⟨b, hb⟩ := h.currentBit_ok ‹_›
    exact ⟨_, by rw [sendBit, hb]; rfl⟩
  · exact ⟨_, rfl⟩

/-- From a legal state every operation ends without a fault. -/
theorem exec_next_of_legal {s : State} (hs : s.Legal) (i : Instr) : ∃ t, exec i s = .next t := by
  cases i with
  | txOpen m => exact finishTx_ok s (by unfold txOpen; split_ifs <;> exact ⟨_, rfl⟩)
  | txNextBit => exact finishTx_ok s hs.tx.txNextBit_ok
  | txClose => exact finishTx_ok s (inTxSession_ok _ _ fun _ => ⟨_, rfl⟩)
  | txRdsr => exact ⟨_, rfl⟩
  | rxOpen c e k => exact finishRx_ok s (by unfold rxOpen; split_ifs <;> exact ⟨_, rfl⟩)
  | rxAccept v =>
    refine finishRx_ok s (inRxSession_ok _ fun ha => ?_)
    split
    · exact ⟨_, rfl⟩
    · exact hs.rx.intake_ok ha _
  | rxEvent code => exact finishRx_ok s (inRxSession_ok _ fun _ => ⟨_, rfl⟩)
  | rxLinebit b => exact finishRx_ok s (inRxSession_ok _ fun ha => hs.rx.lineBit_ok ha b)
  | rxResult => exact hs.rx.rxResult_ok.elim fun _ hr => ⟨_, exec_rxResult_plus hr⟩
  | rxClose => exact finishRx_ok s (inRxSession_ok _ fun _ => ⟨_, rfl⟩)
  | rxRdsr => exact ⟨_, rfl⟩

/-- From a legal state every step goes on: no fault and no refusal. -/
theorem step_next_of_legal {s : State} (hs : s.Legal) : ∃ t, step s = .next t := by
  obtain ⟨hstray, hword⟩ := decode_not_refused hs.stream
  unfold step
  cases hd : decode s.commands with
  | instr i rest => exact exec_next_of_legal (hs.take ((decode_streamOk hs.stream).1 i rest hd)) i
  | illegal w rest => exact ⟨_, rfl⟩
  | incomplete => exact ⟨_, rfl⟩
  | strayDataByte => exact absurd hd hstray
  | wordInDataPhase => exact absurd hd hword

theorem run_succ_of_step {s t : State} (h : step s = .next t) (k : Nat) :
    Host.Core.run Sys2Proof.core (k + 1) s = Host.Core.run Sys2Proof.core k t := by
  have hstep : Sys2Proof.core.step s = .next t := h
  simp only [Host.Core.run, hstep]

/-- Settles O5, by induction on the number of steps: a step from a legal state goes on, to a legal state. -/
theorem legalStatesRunSafelyForever : Obligations.LegalStatesRunSafelyForever := by
  intro k
  induction k with
  | zero => exact fun s hs => ⟨s, rfl, hs⟩
  | succ k ih =>
    intro s hs
    obtain ⟨t, ht⟩ := step_next_of_legal hs
    obtain ⟨u, hrun, hu⟩ := ih t (stepKeepsStatesLegal s t hs ht)
    exact ⟨u, (run_succ_of_step ht k).trans hrun, hu⟩

end Machine
end Sys2Proof

/-! ## The decoder reads an encoding back, and reads nothing else (30_encoding.md R75 to R79, R83) -/

namespace Sys2Proof

@[simp] theorem decodeFormatN_zero (i : Instr) : decodeFormatN 0#32 i = .whole i := if_pos rfl

@[simp] theorem decodeFormatC_openOperand (c s : Bool) (k : BitVec 30) :
    decodeFormatC (openOperand c s k) = .whole (.rxOpen c s k) := by
  have hcap : (openOperand c s k).extractLsb' 2 30 = k := by
    apply BitVec.eq_of_getLsbD_eq
    intro i hi
    rw [BitVec.getLsbD_extractLsb', getLsbD_openOperand, if_neg (by omega), if_neg (by omega)]
    simp [hi]
  rw [decodeFormatC, hcap, getLsbD_openOperand, getLsbD_openOperand]
  rfl

@[simp] theorem decodeFormatB_lineOperand (b : Bool) (f : Bool → Instr) :
    decodeFormatB (lineOperand b) f = .whole (f b) := by
  cases b <;> rfl

/-- TX_OPEN's word alone is not the whole operation; every other operation's is. -/
theorem decodeHead_encodeWord {i : Instr} (hi : ∀ m, i ≠ .txOpen m) :
    decodeHead (encodeWord i) = .whole i := by
  cases i with
  | txOpen m => exact absurd rfl (hi m)
  | txNextBit | txClose | txRdsr | rxOpen _ _ _ | rxAccept _ | rxEvent _ | rxLinebit _ | rxResult
  | rxClose | rxRdsr => simp [decodeHead, opcodeBits, operandBits]

theorem decodeHead_encodeWord_txOpen (m : List Byte) :
    decodeHead (encodeWord (.txOpen m)) = .opensMessage (BitVec.ofNat 32 m.length) :=
  decodeHead_txOpen _

/-- Only TX_OPEN has a data phase (R79). -/
theorem dataBytes_eq_nil {i : Instr} (hi : ∀ m, i ≠ .txOpen m) : dataBytes i = [] := by
  cases i with
  | txOpen m => exact absurd rfl (hi m)
  | txNextBit | txClose | txRdsr | rxOpen _ _ _ | rxAccept _ | rxEvent _ | rxLinebit _ | rxResult
  | rxClose | rxRdsr => rfl

/-- A message that format L can count is as long as its operand says (R76). -/
theorem toNat_ofNat_length {m : List Byte} (hm : (Instr.txOpen m).wf = true) :
    (BitVec.ofNat 32 m.length).toNat = m.length :=
  Nat.mod_eq_of_lt (of_decide_eq_true hm)

theorem decodeWord_of_whole {w : CommandWord} {i : Instr} (h : decodeHead w = .whole i)
    (rest : List Item) : decodeWord w rest = .instr i rest := by
  rw [decodeWord, h]

theorem decodeWord_of_opensMessage {w : CommandWord} {n : Word}
    (h : decodeHead w = .opensMessage n) (items : List Item) :
    decodeWord w items = (takeData items n.toNat).toDecoded := by
  rw [decodeWord, h]

/-- Settles O7: the word says which operation it is, and TX_OPEN's operand how many data bytes follow. -/
theorem decodeOfEncodeIsTheOperation : Obligations.DecodeOfEncodeIsTheOperation := by
  intro i rest hwf
  change decodeWord (encodeWord i) ((dataBytes i).map .byte ++ rest) = _
  by_cases hi : ∃ m, i = .txOpen m
  · obtain ⟨m, rfl⟩ := hi
    rw [decodeWord_of_opensMessage (decodeHead_encodeWord_txOpen m), toNat_ofNat_length hwf]
    exact congrArg DataPhase.toDecoded (takeData_append m rest)
  · have hdata : ∀ m, i ≠ .txOpen m := not_exists.1 hi
    rw [decodeWord_of_whole (decodeHead_encodeWord hdata), dataBytes_eq_nil hdata]
    rfl

/-- Decoding an encoding that nothing follows. -/
theorem decode_encode {i : Instr} (hwf : i.wf = true) : decode (encode i) = .instr i [] := by
  simpa using decodeOfEncodeIsTheOperation i [] hwf

/-- What decodes to an operation begins with a command word. -/
theorem decode_instr {items rest : List Item} {i : Instr} (h : decode items = .instr i rest) :
    ∃ w after, items = .word w :: after ∧ decodeWord w after = .instr i rest := by
  match items, h with
  | [], h => cases h
  | .byte _ :: _, h => cases h
  | .word w :: after, h => exact ⟨w, after, rfl, h⟩

theorem encodeWord_of_fields {w : CommandWord} {i : Instr} (hop : opcodeOf w = opcodeBits i)
    (hx : operandOf w = operandBits i) : encodeWord i = w := by
  rw [encodeWord, ← hop, ← hx, commandWord_fields]

theorem toDecoded_instr {d : DataPhase} {i : Instr} {rest : List Item}
    (h : d.toDecoded = .instr i rest) : ∃ m, d = .complete m rest ∧ i = .txOpen m := by
  cases d with
  | complete m after => cases h; exact ⟨m, rfl, rfl⟩
  | short => cases h
  | broken => cases h

/-- Settles O8, by what the word says: a whole operation, or a TX_OPEN whose data phase was complete. -/
theorem encodeOfDecodeIsTheStream : Obligations.EncodeOfDecodeIsTheStream := by
  intro items rest i h
  obtain ⟨w, after, rfl, hw⟩ := decode_instr h
  cases hd : decodeHead w with
  | whole j =>
    rw [decodeWord_of_whole hd] at hw
    cases hw
    obtain ⟨hop, hx, hdata, hwf, -⟩ := decodeHead_whole hd
    exact ⟨by rw [encode, encodeWord_of_fields hop hx, hdata]; rfl, hwf⟩
  | opensMessage n =>
    rw [decodeWord_of_opensMessage hd] at hw
    obtain ⟨m, hm, rfl⟩ := toDecoded_instr hw
    obtain ⟨hop, hx, -⟩ := decodeHead_opens hd
    obtain ⟨rfl, hlen⟩ := takeData_complete hm
    have hn : operandOf w = operandBits (.txOpen m) := by
      rw [hx, operandBits, hlen, BitVec.ofNat_toNat, BitVec.setWidth_eq]
    exact ⟨by rw [encode, encodeWord_of_fields hop hn]; rfl, decide_eq_true (hlen ▸ n.isLt)⟩
  | illegal => simp [decodeWord, hd] at hw

/-! ## The words of the opcode map, and the illegal ones (30_encoding.md R76 to R78, R84) -/

theorem opcodeOf_toNat (w : CommandWord) : (opcodeOf w).toNat = w.toNat / 2 ^ 32 := by
  have hw := w.isLt
  rw [opcodeOf, BitVec.extractLsb'_toNat, Nat.shiftRight_eq_div_pow]
  omega

theorem operandOf_toNat (w : CommandWord) : (operandOf w).toNat = w.toNat % 2 ^ 32 := by
  rw [operandOf, BitVec.extractLsb'_toNat, Nat.shiftRight_zero]

/-- Format N refuses exactly the operands with a bit set (R78). -/
theorem decodeFormatN_eq_illegal_iff (x : Word) (i : Instr) :
    decodeFormatN x i = .illegal ↔ x.toNat ≠ 0 := by
  have hx : x = 0#32 ↔ x.toNat = 0 := BitVec.toNat_inj.symm
  simp [decodeFormatN, hx]

/-- Format B refuses exactly the operands above 1 (R78). -/
theorem decodeFormatB_eq_illegal_iff (x : Word) (f : Bool → Instr) :
    decodeFormatB x f = .illegal ↔ 2 ≤ x.toNat := by
  have hx : ¬ x.extractLsb' 1 31 = 0#31 ↔ 2 ≤ x.toNat := by
    rw [← BitVec.toNat_inj, BitVec.extractLsb'_toNat, Nat.shiftRight_eq_div_pow, BitVec.toNat_ofNat]
    omega
  rw [← hx, decodeFormatB]
  split <;> simp [*]

/-- R78 by the fields of the word: an opcode of no operation, an operand bit of format N, or one above bit 0 of format B. -/
theorem decodeHead_eq_illegal_iff (w : CommandWord) :
    decodeHead w = .illegal ↔
      ((opcodeOf w).toNat = 0x00 ∨ (0x05 ≤ (opcodeOf w).toNat ∧ (opcodeOf w).toNat ≤ 0x10) ∨
        0x18 ≤ (opcodeOf w).toNat) ∨
      ((opcodeOf w).toNat ∈ [0x02, 0x03, 0x04, 0x15, 0x16, 0x17] ∧ (operandOf w).toNat ≠ 0) ∨
      ((opcodeOf w).toNat = 0x14 ∧ 2 ≤ (operandOf w).toNat) := by
  unfold decodeHead
  split
  case h_12 =>
    exact iff_of_true rfl (.inl (by simp only [imp_false] at *; bv_omega))
  all_goals simp [*, decodeFormatN_eq_illegal_iff, decodeFormatB_eq_illegal_iff, decodeFormatC]

theorem decode_word_eq_illegal_iff (w : CommandWord) (rest : List Item) :
    decode (.word w :: rest) = .illegal w rest ↔ decodeHead w = .illegal := by
  change decodeWord w rest = _ ↔ _
  cases hd : decodeHead w with
  | whole i => simp [decodeWord, hd]
  | opensMessage n =>
    rw [decodeWord_of_opensMessage hd]
    cases takeData rest n.toNat <;> simp [DataPhase.toDecoded]
  | illegal => simp [decodeWord, hd]

/-- The word of format C, field by field (R76). -/
theorem commandWord_openOperand (op : Byte) (c s : Bool) (k : BitVec 30) :
    commandWord op (openOperand c s k) = op ++ k ++ BitVec.ofBool s ++ BitVec.ofBool c := by
  simp only [commandWord, openOperand, bit1, BitVec.append_assoc, BitVec.cast_eq]

/-- Settles O9: a word is its opcode before its operand. -/
theorem commandWordsHaveTheSpecsLayout : Obligations.CommandWordsHaveTheSpecsLayout := by
  refine ⟨fun m => rfl, rfl, rfl, rfl, fun c s k => ?_, fun v => rfl, fun v => rfl, ?_, rfl, rfl, rfl⟩
  · exact commandWord_openOperand 0x11#8 c s k
  · decide

/-- Settles O10, by running the decoder on each word. -/
theorem specWordsDecodeRight : Obligations.SpecWordsDecodeRight := by
  unfold Obligations.SpecWordsDecodeRight
  decide

/-- Settles O17, clause by clause. -/
theorem pseudoOperationsExpand : Obligations.PseudoOperationsExpand :=
  ⟨fun _ => rfl, fun _ => rfl,
    fun _ _ => ⟨List.length_replicate, fun _ => List.eq_of_mem_replicate⟩,
    fun _ _ _ => List.getElem?_map⟩

/-! ## The items of a word of the opcode table (30_encoding.md R75, R79) -/

/-- A table word is read with the data bytes it calls for, and no item more. -/
theorem length_tableItems (nbits w : Nat) :
    (tableItems nbits w).length = dataLength (BitVec.ofNat 40 (w % 2 ^ nbits)) + 1 := by
  simp [tableItems]

/-- An operation's word calls for exactly the data bytes that its encoding gives it (R79). -/
theorem dataLength_encodeWord {i : Instr} (hwf : i.wf = true) :
    dataLength (encodeWord i) = (dataBytes i).length := by
  by_cases hi : ∃ m, i = .txOpen m
  · obtain ⟨m, rfl⟩ := hi
    obtain ⟨-, -, hlen⟩ := decodeHead_opens (decodeHead_encodeWord_txOpen m)
    exact hlen.trans (toNat_ofNat_length hwf)
  · have hdata : ∀ m, i ≠ .txOpen m := not_exists.1 hi
    obtain ⟨-, -, hbytes, -, hlen⟩ := decodeHead_whole (decodeHead_encodeWord hdata)
    rw [hlen, hbytes, List.length_nil]

/-- A word of the table that decodes is the encoding of its operation, with nothing after it. -/
theorem tableItems_eq_encode {nbits w : Nat} {i : Instr} (h : decodeTableWord nbits w = some i) :
    tableItems nbits w = encode i ∧ i.wf = true := by
  unfold decodeTableWord at h
  cases hd : decode (tableItems nbits w) <;> rw [hd] at h <;> cases h
  case instr rest =>
    obtain ⟨heq, hwf⟩ := encodeOfDecodeIsTheStream _ rest i hd
    have hword : BitVec.ofNat 40 (w % 2 ^ nbits) = encodeWord i := by
      simpa [tableItems, encode] using congrArg List.head? heq
    have hlen := congrArg List.length heq
    rw [length_tableItems, hword, dataLength_encodeWord hwf, List.length_append, encode,
      List.length_cons, List.length_map] at hlen
    obtain rfl : rest = [] := List.eq_nil_of_length_eq_zero (by omega)
    exact ⟨heq.trans (List.append_nil _), hwf⟩

/-! ## A step by what the decoder reads (10_state.md R21, 30_encoding.md R78, R79) -/

namespace Machine

theorem step_of_instr {s : State} {i : Instr} {rest : List Item}
    (h : decode s.commands = .instr i rest) : step s = exec i (s.take rest) := by
  rw [step, h]

theorem step_of_illegal {s : State} {w : CommandWord} {rest : List Item}
    (h : decode s.commands = .illegal w rest) : step s = illegalOp w (s.take rest) := by
  rw [step, h]

theorem step_of_incomplete {s : State} (h : decode s.commands = .incomplete) :
    step s = awaitCommand s := by
  rw [step, h]

theorem step_of_wordInDataPhase {s : State} (h : decode s.commands = .wordInDataPhase) :
    step s = .refused .wordInDataPhase := by
  rw [step, h]

theorem step_of_strayDataByte {s : State} (h : decode s.commands = .strayDataByte) :
    step s = .refused .strayDataByte := by
  rw [step, h]

/-- Settles O12: the second clause is the step's own case, and the first reads the encoding by O7. -/
theorem stepRunsTheDecodedOperation : Obligations.StepRunsTheDecodedOperation := by
  refine ⟨fun s i rest hwf hc => step_of_instr ?_, fun s i rest h => step_of_instr h⟩
  rw [hc]
  exact decodeOfEncodeIsTheOperation i rest hwf

/-- Settles O15: the table word's items are an encoding, so the step takes them and leaves the stream that stood. -/
theorem fetchWordIsRunNext : Obligations.FetchWordIsRunNext := by
  intro s nbits w i h
  obtain ⟨heq, hwf⟩ := tableItems_eq_encode h
  exact stepRunsTheDecodedOperation.1 (s.withFetchWord nbits w) i s.commands hwf
    (congrArg (· ++ s.commands) heq)

theorem exec_txOpen_badLength {s : State} {m : List Byte} (ha : s.tx.active = false)
    (hlen : m.length = 0 ∨ s.params.txMaxLen < m.length) :
    exec (.txOpen m) s = .next (s.plus (raise .invalidInput (BitVec.ofNat 40 m.length) [] [])) := by
  simp only [exec, execTxOpen, txOpen, ha, Bool.false_eq_true, if_false, hlen, if_true, finishTx,
    State.endTx_self]

theorem requestedCapacity_of_ne_zero {cap : BitVec 30} (h : cap ≠ 0#30) :
    requestedCapacity cap = cap.toNat := if_neg h

theorem exec_rxOpen_tooLarge {s : State} (c e : Bool) {cap : BitVec 30}
    (ha : s.rx.active = false) (hcap : Config.rxMaxCapacity < requestedCapacity cap) :
    exec (.rxOpen c e cap) s =
      .next (s.plus (raise .invalidInput (cap.setWidth 40) [] [])) := by
  simp only [exec, execRxOpen, rxOpen, ha, Bool.false_eq_true, if_false, hcap, if_true, finishRx,
    State.endRx_self]

/-- Settles O11: R78's two cases by the fields of the word, the illegal word's own outcome, and the two operations that
decode and answer INVALID_INPUT. -/
theorem illegalWordsAreThoseOfTheSpec : Obligations.IllegalWordsAreThoseOfTheSpec := by
  refine ⟨fun w rest => ?_, fun s w rest hc hd => ?_, fun s m ha hfits hlen => ?_,
    fun s c e cap ha hcap => ?_⟩
  · rw [decode_word_eq_illegal_iff, decodeHead_eq_illegal_iff, opcodeOf_toNat, operandOf_toNat]
  · exact step_of_illegal (hc ▸ hd)
  · exact ⟨decode_encode (decide_eq_true hfits), exec_txOpen_badLength ha hlen⟩
  · have hne : cap ≠ 0#30 := by rintro rfl; cases hcap
    have hreq : Config.rxMaxCapacity < requestedCapacity cap :=
      requestedCapacity_of_ne_zero hne ▸ hcap
    exact ⟨decode_encode rfl, exec_rxOpen_tooLarge c e ha hreq⟩

theorem finishTx_not_refused (s : State) (o : TxResult) (r : Refusal) :
    finishTx s o ≠ .refused r := by
  cases o <;> exact nofun

theorem finishRx_not_refused (s : State) (o : RxResult) (r : Refusal) :
    finishRx s o ≠ .refused r := by
  cases o <;> exact nofun

/-- No operation is refused, in any state: only the stream can be. -/
theorem exec_not_refused (i : Instr) (s : State) (r : Refusal) : exec i s ≠ .refused r := by
  cases hi : isTxOp i with
  | true =>
    obtain ⟨op, hop⟩ := exec_eq_finishTx hi
    exact hop s ▸ finishTx_not_refused s _ r
  | false =>
    obtain ⟨op, hop⟩ := exec_eq_finishRx hi
    exact hop s ▸ finishRx_not_refused s _ r

/-- Settles O14: the decoder names both breaks of R79, reads none in a stream that keeps to it, and no operation is
refused. -/
theorem onlyABrokenStreamIsRefused : Obligations.OnlyABrokenStreamIsRefused := by
  refine ⟨fun s b rest hc => step_of_strayDataByte (hc ▸ rfl),
    fun s n bs w rest hlen hc => step_of_wordInDataPhase ?_, fun s hok r => ?_⟩
  · rw [hc]
    change decodeWord (commandWord 0x01#8 n) _ = _
    rw [decodeWord_of_opensMessage (decodeHead_txOpen n), takeData_broken bs w rest hlen]
    rfl
  · obtain ⟨hstray, hword⟩ := decode_not_refused hok
    cases hd : decode s.commands with
    | instr i rest => exact step_of_instr hd ▸ exec_not_refused i _ r
    | illegal w rest => exact step_of_illegal hd ▸ nofun
    | incomplete => exact step_of_incomplete hd ▸ nofun
    | strayDataByte => exact absurd hd hstray
    | wordInDataPhase => exact absurd hd hword

/-! ## Responses and their codes (30_encoding.md R80, R81) -/

/-- Settles O18: either unit's operations end by `endTx` or `endRx`, which add one response and write one unit. -/
theorem everyOperationGivesOneResponse : Obligations.EveryOperationGivesOneResponse := by
  intro i s t h
  rcases exec_ends h with ⟨-, u, r, rfl, -⟩ | ⟨-, u, r, rfl, -⟩
  · exact ⟨⟨r, rfl⟩, rfl, rfl⟩
  · exact ⟨⟨r, rfl⟩, rfl, rfl⟩

/-- R81 gives its codes no value above 6. -/
theorem ErrorCode.code_toNat_lt (e : ErrorCode) : e.code.toNat < 7 := by
  cases e <;> decide

/-- Settles O22: the values are R81's, and no response carries a code that has none. -/
theorem errorCodesHaveTheSpecsValues : Obligations.ErrorCodesHaveTheSpecsValues :=
  ⟨rfl, rfl, rfl, rfl, rfl, rfl, rfl, fun _ _ r _ _ => r.err.code_toNat_lt⟩

end Machine
end Sys2Proof

/-! ## The transmit framer's operations, rule by rule (40_tx_framer.md R100 to R103) -/

namespace Sys2Proof.Machine

theorem inTxSession_active {tx : TxUnit} (ha : tx.active = true) (x : Word) (vs : List Value)
    (body : TxResult) : inTxSession tx x vs body = body :=
  if_pos ha

theorem inTxSession_idle {tx : TxUnit} (ha : tx.active = false) (x : Word) (vs : List Value)
    (body : TxResult) :
    inTxSession tx x vs body = .ok (tx, raise .noSession (x.setWidth 40) vs []) :=
  if_neg (ha ▸ Bool.false_ne_true)

theorem exec_txClose (s : State) : exec .txClose s = finishTx s (txClose s.tx) := rfl

/-- Settles O27: TX_CLOSE is turned away or writes `TxUnit.closed`. -/
theorem txCloseFollowsItsRule : Obligations.TxCloseFollowsItsRule := by
  refine fun s => ⟨fun ha => ?_, fun ha => ?_⟩
  · rw [exec_txClose, txClose, inTxSession_idle ha]
    rfl
  · rw [exec_txClose, txClose, inTxSession_active ha]
    rfl

/-- With no session TX reads as after reset, so its first status word is 0 (R102, R103). -/
theorem txsr0_idle (bd : Boundary) {u : TxUnit} (ha : u.active = false) (hphase : u.bitPhase = 0#4) :
    txsr0 bd u = 0#32 := by
  rw [txsr0, TxUnit.done, ha, hphase, Bool.false_and]
  decide

theorem TxUnit.Legal.txRdsr_idle {p : Params} {tx : TxUnit} (h : tx.Legal p)
    (ha : tx.active = false) :
    txRdsr p tx = .ok (tx, answer [.word 0, .word 0, .word 0] []) := by
  obtain ⟨hcount, hcursor, hphase⟩ := h.idle ha
  rw [txRdsr, txsr0_idle _ ha hphase, txsr1, txsr2, hcount, hcursor]
  rfl

/-- No status word shows RXD, so one that holds anything reads as after reset (R37, R39). -/
theorem rxsr0_reset (rxd : Memory) : rxsr0 { RxUnit.reset with rxd := rxd } = 0#32 := by
  have hrxd : rxsr0 { RxUnit.reset with rxd := rxd } = rxsr0 RxUnit.reset := rfl
  rw [hrxd]
  decide

/-- With no session RX has its reset values, whatever RXD holds (R134, R135). -/
theorem RxUnit.Legal.rxRdsr_idle {rx : RxUnit} (h : rx.Legal) (ha : rx.active = false) :
    rxRdsr rx = .ok (rx, answer [.word 0, .word 0, .word 0] []) := by
  rw [h.idle ha, rxRdsr, rxsr0_reset]
  rfl

theorem exec_txRdsr (s : State) : exec .txRdsr s = finishTx s (txRdsr s.params s.tx) := rfl

theorem exec_rxRdsr (s : State) : exec .rxRdsr s = finishRx s (rxRdsr s.rx) := rfl

/-- Settles O30: a legal idle unit reads as 0, and a status read's response is a function of the unit, which it leaves
alone. -/
theorem statusReadsAreLegalWithoutASession : Obligations.StatusReadsAreLegalWithoutASession := by
  refine ⟨fun s hs ha => ?_, fun s hs ha => ?_, fun s => ⟨_, rfl⟩, fun s => ⟨_, rfl⟩⟩
  · rw [exec_txRdsr, hs.txRdsr_idle ha]
    rfl
  · rw [exec_rxRdsr, hs.rxRdsr_idle ha]
    rfl

/-- TX_OPEN while a session exists (R100). -/
theorem exec_txOpen_busy {s : State} (m : List Byte) (ha : s.tx.active = true) :
    exec (.txOpen m) s = .next (s.plus (raise .busy (BitVec.ofNat 40 m.length) [] [])) := by
  simp only [exec, execTxOpen, txOpen, ha, if_true, finishTx, State.endTx_self]

/-- The bytes that a session opened with message m frames: the message, and under REFERENCE the byte drawn after it
(R100, R105). -/
def TxUnit.bytesToSend (bd : Boundary) (m : List Byte) (u : TxUnit) : List Byte :=
  match bd with
  | .strict => m
  | .reference => m ++ [Config.draw8 u.draws]

theorem Memory.writeAll_concat (mem : Memory) (a : Nat) (bs : List Byte) (b : Byte) :
    mem.writeAll a (bs ++ [b]) = (mem.writeAll a bs).write (a + bs.length) b := by
  induction bs generalizing mem a with
  | nil => rfl
  | cons c bs ih =>
    rw [List.cons_append, Memory.writeAll, ih, Memory.writeAll, List.length_cons, Nat.add_right_comm,
      Nat.add_assoc]

/-- Under either boundary TX_OPEN writes the bytes it will frame, from index 0 on. -/
theorem TxUnit.opened_txs (bd : Boundary) (m : List Byte) (u : TxUnit) :
    (u.opened bd m).txs = u.txs.writeAll 0 (u.bytesToSend bd m) := by
  cases bd with
  | strict => rfl
  | reference =>
    rw [TxUnit.bytesToSend, Memory.writeAll_concat, Nat.zero_add, TxUnit.opened_reference_txs]

theorem TxUnit.read_opened_txs_of_getElem? (bd : Boundary) (m : List Byte) (u : TxUnit) {k : Nat}
    {b : Byte} (hk : (u.bytesToSend bd m)[k]? = some b) : (u.opened bd m).txs.read k = some b := by
  have hlt : k < (u.bytesToSend bd m).length := (List.getElem?_eq_some_iff.1 hk).1
  rw [TxUnit.opened_txs, Memory.read_writeAll, if_pos (by omega), Nat.sub_zero, hk]

theorem TxUnit.read_opened_txs_of_ge (bd : Boundary) (m : List Byte) (u : TxUnit) {k : Nat}
    (hk : (u.bytesToSend bd m).length ≤ k) : (u.opened bd m).txs.read k = u.txs.read k := by
  rw [TxUnit.opened_txs, Memory.read_writeAll, if_neg (by omega)]

theorem TxUnit.length_bytesToSend_reference (m : List Byte) (u : TxUnit) :
    (u.bytesToSend .reference m).length = m.length + 1 :=
  List.length_append

theorem TxUnit.length_bytesToSend_le (bd : Boundary) (m : List Byte) (u : TxUnit) :
    (u.bytesToSend bd m).length ≤ m.length + 1 := by
  cases bd with
  | strict => exact Nat.le_succ _
  | reference => exact (TxUnit.length_bytesToSend_reference m u).le

/-- The message comes first among the bytes to send. -/
theorem TxUnit.getElem?_bytesToSend (bd : Boundary) {m : List Byte} (u : TxUnit) {k : Nat} {b : Byte}
    (hk : m[k]? = some b) : (u.bytesToSend bd m)[k]? = some b := by
  cases bd with
  | strict => exact hk
  | reference => exact (List.getElem?_append_left (List.getElem?_eq_some_iff.1 hk).1).trans hk

/-- Settles O23: each clause is one of TX_OPEN's three outcomes, and what TXS reads as is `TxUnit.opened_txs`. -/
theorem txOpenFollowsItsRule : Obligations.TxOpenFollowsItsRule := by
  refine fun s m => ⟨exec_txOpen_busy m, exec_txOpen_badLength, fun ha hpos hmax => ?_⟩
  have hopen := exec_txOpen_accepted ha hpos hmax
  refine ⟨_, hopen, TxUnit.opened_active _ _ _,
    TxUnit.opened_byteCount _ _ _, TxUnit.opened_byteCursor _ _ _, TxUnit.opened_bitPhase _ _ _,
    fun k b hk => ?message, fun hb k hk => ?strict,
    fun hb => ⟨⟨_, (drawnBytesAreFreeValues.1 s _ m hb ha hpos hmax hopen).1⟩, fun k hk => ?reference⟩,
    rfl, rfl, rfl, rfl⟩
  case message =>
    exact TxUnit.read_opened_txs_of_getElem? _ m s.tx (TxUnit.getElem?_bytesToSend _ _ hk)
  case strict =>
    rw [hb]
    exact TxUnit.read_opened_txs_of_ge .strict m s.tx hk
  case reference =>
    rw [hb]
    exact TxUnit.read_opened_txs_of_ge .reference m s.tx
      ((TxUnit.length_bytesToSend_reference m s.tx).trans_le hk)

theorem exec_txNextBit (s : State) : exec .txNextBit s = finishTx s (txNextBit s.params s.tx) := rfl

/-- Once the message is exhausted TX_NEXT_BIT gives the idle 1 and changes nothing (R101). -/
theorem exec_txNextBit_exhausted {s : State} (ha : s.tx.active = true) (hf : ¬ FramingHolds s) :
    exec .txNextBit s = .next (s.plus (bitResponse true)) := by
  rw [exec_txNextBit, txNextBit, inTxSession_active ha,
    if_neg (mt (framing_iff_FramingHolds s).1 hf)]
  rfl

/-- The current bit is that of R70's table; only a data position needs the byte at the cursor. -/
theorem currentBit_eq_frameBit {p : Params} {tx : TxUnit} {b : Byte} (h9 : tx.bitPhase.toNat ≤ 9)
    (hdata : 1 ≤ tx.bitPhase.toNat → tx.bitPhase.toNat ≤ 8 →
      tx.txs.read tx.byteCursor = some b ∧ tx.byteCursor ≤ p.txMaxLen) :
    currentBit p tx = .ok (frameBit b tx.bitPhase.toNat) := by
  rcases (by omega : tx.bitPhase.toNat = 0 ∨ tx.bitPhase.toNat = 9 ∨
      (1 ≤ tx.bitPhase.toNat ∧ tx.bitPhase.toNat ≤ 8)) with h0 | hlast | ⟨h1, h8⟩
  · have hstart : tx.bitPhase = 0#4 := BitVec.eq_of_toNat_eq h0
    rw [currentBit, if_pos hstart, h0]
    rfl
  · have hstop : tx.bitPhase = 9#4 := BitVec.eq_of_toNat_eq hlast
    rw [currentBit, if_neg (hstop ▸ by decide), if_pos hstop, hlast]
    rfl
  · obtain ⟨hread, hle⟩ := hdata h1 h8
    rw [currentBit_data p h1 h8, readTxs_of_le _ hle, TxUnit.byteAt, hread, frameBit,
      if_neg (by omega), if_neg (by omega)]
    rfl

/-- While framing, TX_NEXT_BIT gives the frame's bit at the current position and moves on (R70, R101). -/
theorem exec_txNextBit_sends {s : State} {b : Byte} (ha : s.tx.active = true) (hf : FramingHolds s)
    (h9 : s.tx.bitPhase.toNat ≤ 9)
    (hdata : 1 ≤ s.tx.bitPhase.toNat → s.tx.bitPhase.toNat ≤ 8 →
      s.tx.txs.read s.tx.byteCursor = some b ∧ s.tx.byteCursor ≤ s.params.txMaxLen) :
    exec .txNextBit s =
      .next (s.endTx s.tx.advance (bitResponse (frameBit b s.tx.bitPhase.toNat))) := by
  rw [exec_txNextBit_framing ha hf, sendBit, currentBit_eq_frameBit h9 hdata]
  rfl

/-- Settles O25: no session, exhausted, or a frame bit and the move to the next position. -/
theorem txNextBitFollowsItsRule : Obligations.TxNextBitFollowsItsRule := by
  refine fun s => ⟨fun ha => ?_, exec_txNextBit_exhausted, ?_⟩
  · rw [exec_txNextBit, txNextBit, inTxSession_idle ha]
    rfl
  · rintro p b ha hf rfl h9 hdata
    rw [exec_txNextBit_sends ha hf h9 hdata, TxUnit.advance_eq _ h9]
    rfl

end Sys2Proof.Machine

/-! ## The frames of a session (40_tx_framer.md R104, R105) -/

namespace Sys2Proof.Machine

/-- How many frames a session sends: BYTE_COUNT, and under REFERENCE one more (R105). -/
def TxUnit.frameCount (bd : Boundary) (tx : TxUnit) : Nat :=
  match bd with
  | .strict => tx.byteCount
  | .reference => tx.byteCount + 1

theorem framing_iff_lt_frameCount (bd : Boundary) (tx : TxUnit) :
    framing bd tx = true ↔ tx.byteCursor < tx.frameCount bd := by
  cases bd with
  | strict => exact decide_eq_true_iff
  | reference => exact decide_eq_true_iff.trans Nat.lt_succ_iff.symm

/-- A session that has `sent` to frame: as many frames as bytes, every byte in TXS at an index that exists. -/
structure TxUnit.Sends (p : Params) (tx : TxUnit) (sent : List Byte) : Prop where
  active : tx.active = true
  frames : tx.frameCount p.boundary = sent.length
  stored : ∀ k b, sent[k]? = some b → tx.txs.read k = some b
  fits : sent.length ≤ p.txMaxLen + 1

theorem TxUnit.opened_sends {p : Params} {m : List Byte} (tx : TxUnit)
    (hmax : m.length ≤ p.txMaxLen) :
    (tx.opened p.boundary m).Sends p (tx.bytesToSend p.boundary m) where
  active := TxUnit.opened_active _ _ _
  frames := by
    cases p.boundary with
    | strict => rfl
    | reference => exact (TxUnit.length_bytesToSend_reference m tx).symm
  stored _ _ hk := TxUnit.read_opened_txs_of_getElem? _ m tx hk
  fits := by
    have := TxUnit.length_bytesToSend_le p.boundary m tx
    omega

/-- The unit with its session at a position of the line: 10 positions for each byte, the cursor's byte and the phase in its
frame (R24, R25). -/
def TxUnit.atPosition (tx : TxUnit) (pos : Nat) : TxUnit :=
  { tx with bitPhase := BitVec.ofNat 4 (pos % 10), byteCursor := pos / 10 }

theorem TxUnit.atPosition_phase_toNat (tx : TxUnit) (pos : Nat) :
    (tx.atPosition pos).bitPhase.toNat = pos % 10 := by
  rw [TxUnit.atPosition, BitVec.toNat_ofNat]
  omega

theorem TxUnit.opened_atPosition_zero (bd : Boundary) (m : List Byte) (tx : TxUnit) :
    (tx.opened bd m).atPosition 0 = tx.opened bd m := by
  cases bd <;> rfl

theorem TxUnit.advance_atPosition (tx : TxUnit) (pos : Nat) :
    (tx.atPosition pos).advance = tx.atPosition (pos + 1) := by
  have hphase := tx.atPosition_phase_toNat pos
  have hp : (pos % 10 + 1) % 10 = (pos + 1) % 10 := by omega
  have hc : pos / 10 + (pos % 10 + 1) / 10 = (pos + 1) / 10 := by omega
  rw [TxUnit.advance_eq _ (by omega), hphase, hp]
  simp only [TxUnit.atPosition, hc]

/-- Line bit i of a session that frames `sent`: the frames' bits, then the idle 1 (R104). -/
def sessionBit (sent : List Byte) (i : Nat) : Bool :=
  if i < 10 * sent.length then frameBit (sent.getD (i / 10) 0#8) (i % 10) else true

/-- The first c line bits of a session are those of the frames, then idle 1s. -/
theorem map_sessionBit_range (sent : List Byte) (c : Nat) :
    (List.range c).map (sessionBit sent) =
      (lineBits sent ++ List.replicate (c - 10 * sent.length) true).take c := by
  refine List.ext_getElem? fun i => ?_
  by_cases hi : i < c
  · rw [List.getElem?_map, List.getElem?_range hi, List.getElem?_take_of_lt hi, Option.map_some,
      sessionBit]
    split
    · rw [List.getElem?_append_left (by rwa [lineBits_length]), lineBits_getElem? _ ‹_›]
    · rw [List.getElem?_append_right (by rw [lineBits_length]; omega), lineBits_length,
        List.getElem?_replicate, if_pos (by omega)]
  · have hle : c ≤ i := Nat.not_lt.1 hi
    rw [List.getElem?_eq_none (by rwa [List.length_map, List.length_range]),
      List.getElem?_eq_none ((List.length_take_le _ _).trans hle)]

/-- The state after c calls of TX_NEXT_BIT in a session of s that frames `sent` and is at position 0: the position moves
with the first 10 calls for each byte and stays from then on (R104). -/
def State.afterCalls (s : State) (sent : List Byte) (c : Nat) : State :=
  { s with
    tx := s.tx.atPosition (min c (10 * sent.length))
    responses := s.responses ++ (List.range c).map fun i => bitResponse (sessionBit sent i) }

theorem State.afterCalls_succ_of_lt (s : State) {sent : List Byte} {c : Nat}
    (hc : c < 10 * sent.length) :
    s.afterCalls sent (c + 1) = (s.afterCalls sent c).endTx (s.tx.atPosition (c + 1))
      (bitResponse (frameBit (sent.getD (c / 10) 0#8) (c % 10))) := by
  simp only [State.afterCalls, State.endTx, Nat.min_eq_left hc.le, Nat.min_eq_left hc, List.range_succ,
    List.map_append, List.map_singleton, List.append_assoc, sessionBit, if_pos hc]

theorem State.afterCalls_succ_of_ge (s : State) {sent : List Byte} {c : Nat}
    (hc : 10 * sent.length ≤ c) :
    s.afterCalls sent (c + 1) = (s.afterCalls sent c).plus (bitResponse true) := by
  simp only [State.afterCalls, State.plus, Nat.min_eq_right hc, Nat.min_eq_right (Nat.le_succ_of_le hc),
    List.range_succ, List.map_append, List.map_singleton, List.append_assoc, sessionBit,
    if_neg (Nat.not_lt.2 hc)]

section
variable {s : State} {sent : List Byte} (h : s.tx.Sends s.params sent)
include h

/-- A session frames as long as fewer calls have been made than its frames have bits (R27, R105). -/
theorem framingHolds_afterCalls_iff (c : Nat) :
    FramingHolds (s.afterCalls sent c) ↔ c < 10 * sent.length := by
  have hcursor : (s.afterCalls sent c).tx.byteCursor = min c (10 * sent.length) / 10 := rfl
  have hframes : (s.afterCalls sent c).tx.frameCount (s.afterCalls sent c).params.boundary =
      sent.length := h.frames
  rw [← framing_iff_FramingHolds, framing_iff_lt_frameCount, hframes, hcursor]
  omega

theorem done_afterCalls_iff (c : Nat) :
    (s.afterCalls sent c).tx.done s.params.boundary = true ↔ 10 * sent.length ≤ c := by
  rw [← Nat.not_lt, ← framingHolds_afterCalls_iff h]
  exact (done_iff_not_FramingHolds (s.afterCalls sent c)).trans (and_iff_right h.active)

theorem exec_txNextBit_afterCalls_of_ge {c : Nat} (hc : 10 * sent.length ≤ c) :
    exec .txNextBit (s.afterCalls sent c) = .next ((s.afterCalls sent c).plus (bitResponse true)) :=
  exec_txNextBit_exhausted h.active
    (mt (framingHolds_afterCalls_iff h c).1 (Nat.not_lt.2 hc))

theorem exec_txNextBit_afterCalls_of_lt {c : Nat} (hc : c < 10 * sent.length) :
    exec .txNextBit (s.afterCalls sent c) = .next (s.afterCalls sent (c + 1)) := by
  have htx : (s.afterCalls sent c).tx = s.tx.atPosition c :=
    congrArg s.tx.atPosition (Nat.min_eq_left hc.le)
  have hphase : (s.afterCalls sent c).tx.bitPhase.toNat = c % 10 :=
    htx ▸ s.tx.atPosition_phase_toNat c
  have hcursor : (s.afterCalls sent c).tx.byteCursor = c / 10 := by rw [htx]; rfl
  have hbyte : sent[c / 10]? = some (sent.getD (c / 10) 0#8) := by
    rw [List.getD_eq_getElem?_getD, List.getElem?_eq_getElem (by omega), Option.getD_some]
  have hle : c / 10 ≤ s.params.txMaxLen := by
    have hfits := h.fits
    omega
  have hdata : (s.afterCalls sent c).tx.txs.read (s.afterCalls sent c).tx.byteCursor =
        some (sent.getD (c / 10) 0#8) ∧
      (s.afterCalls sent c).tx.byteCursor ≤ (s.afterCalls sent c).params.txMaxLen := by
    rw [hcursor]
    exact ⟨h.stored _ _ hbyte, hle⟩
  have hf := (framingHolds_afterCalls_iff h c).2 hc
  rw [exec_txNextBit_sends (s := s.afterCalls sent c) h.active hf (by omega) (fun _ _ => hdata), hphase,
    htx, TxUnit.advance_atPosition, State.afterCalls_succ_of_lt s hc]

theorem exec_txNextBit_afterCalls (c : Nat) :
    exec .txNextBit (s.afterCalls sent c) = .next (s.afterCalls sent (c + 1)) := by
  by_cases hc : c < 10 * sent.length
  · exact exec_txNextBit_afterCalls_of_lt h hc
  · have hge := Nat.not_lt.1 hc
    rw [exec_txNextBit_afterCalls_of_ge h hge, State.afterCalls_succ_of_ge s hge]

/-- Any number of calls, by induction on it (R104, under either boundary). -/
theorem execAll_txNextBit (hstart : s.tx.atPosition 0 = s.tx) (c : Nat) :
    execAll (List.replicate c .txNextBit) s = .next (s.afterCalls sent c) := by
  induction c with
  | zero =>
    have hzero : s.afterCalls sent 0 = s := by
      simp only [State.afterCalls, Nat.zero_min, hstart, List.range_zero, List.map_nil, List.append_nil]
    rw [hzero]
    rfl
  | succ c ih =>
    rw [List.replicate_succ', execAll_append, ih]
    simp only [andThen, execAll, exec_txNextBit_afterCalls h c]

end

theorem position_afterCalls (s : State) (sent : List Byte) (c : Nat) :
    10 * (s.afterCalls sent c).tx.byteCursor + (s.afterCalls sent c).tx.bitPhase.toNat =
        min c (10 * sent.length) ∧
      (s.afterCalls sent c).tx.bitPhase.toNat ≤ 9 := by
  have hphase : (s.afterCalls sent c).tx.bitPhase.toNat = min c (10 * sent.length) % 10 :=
    s.tx.atPosition_phase_toNat _
  have hcursor : (s.afterCalls sent c).tx.byteCursor = min c (10 * sent.length) / 10 := rfl
  omega

/-- The state once a TX_OPEN has begun a session with message m (R100). -/
def State.txOpened (s : State) (m : List Byte) : State :=
  s.endTx (s.tx.opened s.params.boundary m) plainOk

theorem State.txOpened_sends {s : State} {m : List Byte} (hmax : m.length ≤ s.params.txMaxLen) :
    (s.txOpened m).tx.Sends (s.txOpened m).params (s.tx.bytesToSend s.params.boundary m) :=
  s.tx.opened_sends hmax

/-- Any number of calls after a TX_OPEN that begins a session, under either boundary (R104, R105). -/
theorem execAll_txNextBit_txOpened {s : State} {m : List Byte} (hmax : m.length ≤ s.params.txMaxLen)
    (c : Nat) :
    execAll (List.replicate c .txNextBit) (s.txOpened m) =
      .next ((s.txOpened m).afterCalls (s.tx.bytesToSend s.params.boundary m) c) :=
  execAll_txNextBit (State.txOpened_sends hmax) (TxUnit.opened_atPosition_zero _ m s.tx) c

theorem TxUnit.done_iff (bd : Boundary) (tx : TxUnit) :
    tx.done bd = true ↔ tx.active = true ∧ framing bd tx = false := by
  rw [TxUnit.done, Bool.and_eq_true, Bool.not_eq_true']

/-- DONE ends only with the session: TX_OPEN raises BUSY, and no bit is left to send (R104). -/
theorem TxEnds.done {p : Params} {tx u : TxUnit} {i : Instr} {r : Response}
    (h : TxEnds p tx i u r) (hd : tx.done p.boundary = true) (hclose : i ≠ .txClose) :
    u.done p.boundary = true := by
  obtain ⟨ha, hf⟩ := (TxUnit.done_iff _ _).1 hd
  cases h with
  | rdsr | busy | badLength | idleNoSession | idleDone => exact hd
  | opened m hidle _ _ => exact idle_vacuous ha hidle
  | sent b _ hframing _ => exact Bool.noConfusion (hf.symm.trans hframing)
  | closeNoSession _ => exact absurd rfl hclose
  | closed _ => exact absurd rfl hclose

/-- Settles O31: the state after c calls is `State.afterCalls` of the message, and `TxEnds.done` covers every operation of
TX. -/
theorem frameLaw : Obligations.FrameLaw := by
  refine ⟨fun s m hb ha hpos hmax c => ?_, fun i s t hd hclose h => ?_⟩
  · have hsent : s.tx.bytesToSend s.params.boundary m = m := by rw [hb]; rfl
    have hsends := State.txOpened_sends hmax
    have hrun := execAll_txNextBit_txOpened hmax c
    rw [hsent] at hsends hrun
    obtain ⟨hposition, hphase⟩ := position_afterCalls (s.txOpened m) m c
    refine ⟨(s.txOpened m).afterCalls m c, ?run, List.append_assoc _ _ _, hposition, hphase,
      done_afterCalls_iff hsends c, exec_txNextBit_afterCalls_of_ge hsends, rfl, rfl, rfl⟩
    case run => rw [execAll, exec_txOpen_accepted ha hpos hmax]; exact hrun
  · rcases exec_ends h with ⟨-, u, r, rfl, hu⟩ | ⟨-, u, r, rfl, -⟩
    · exact hu.done hd hclose
    · exact hd

/-- The parameters are the hardware's: no step changes them (00_scope.md R6). -/
theorem step_params {s t : State} (h : step s = .next t) : t.params = s.params := by
  rcases step_cases h with ⟨i, rest, -, he⟩ | ⟨w, rest, -, rfl⟩ | ⟨-, rfl⟩
  · exact (everyOperationGivesOneResponse i _ t he).2.1
  · rfl
  · rfl

/-- Settles O32: under either boundary the bits are those of `TxUnit.bytesToSend`, by the run of `State.afterCalls`. -/
theorem boundaryDecidesTheNumberOfFrames : Obligations.BoundaryDecidesTheNumberOfFrames := by
  refine ⟨rfl, fun s t h => step_params h, fun s m ha hpos hmax => ?_⟩
  have hopen := exec_txOpen_accepted ha hpos hmax
  refine ⟨s.txOpened m, s.tx.bytesToSend s.params.boundary m, hopen, fun hb => by rw [hb]; rfl,
    fun hb => ⟨_, (drawnBytesAreFreeValues.1 s _ m hb ha hpos hmax hopen).1, by rw [hb]; rfl⟩,
    fun c => ⟨_, execAll_txNextBit_txOpened hmax c, ?bits, position_afterCalls _ _ c⟩⟩
  case bits =>
    rw [State.afterCalls, List.drop_left, bitsOf_bitResponses, map_sessionBit_range]

end Sys2Proof.Machine

/-! ## The receive session's operations, rule by rule (41_rx_intake.md R130 to R134) -/

namespace Sys2Proof.Machine

theorem inRxSession_active {rx : RxUnit} (ha : rx.active = true) (x : Word) (body : RxResult) :
    inRxSession rx x body = body :=
  if_pos ha

theorem inRxSession_idle {rx : RxUnit} (ha : rx.active = false) (x : Word) (body : RxResult) :
    inRxSession rx x body = .ok (rx, raise .noSession (x.setWidth 40) [] []) :=
  if_neg (ha ▸ Bool.false_ne_true)

theorem exec_rxClose (s : State) : exec .rxClose s = finishRx s (rxClose s.rx) := rfl

/-- Settles O40: RX_CLOSE is turned away or writes `RxUnit.closed`. -/
theorem rxCloseFollowsItsRule : Obligations.RxCloseFollowsItsRule := by
  refine fun s => ⟨fun ha => ?_, fun ha => ?_⟩
  · rw [exec_rxClose, rxClose, inRxSession_idle ha]
    rfl
  · rw [exec_rxClose, rxClose, inRxSession_active ha]
    rfl

/-- Up to RX_MAX_CAPACITY bytes, RX_RESULT answers the count and those bytes (R133). -/
theorem exec_rxResult_active {s : State} (ha : s.rx.active = true)
    (hle : s.rx.writeCursor.toNat ≤ Config.rxMaxCapacity) :
    exec .rxResult s = .next (s.plus (answer (.word (s.rx.writeCursor.setWidth 32) ::
      ((List.range s.rx.writeCursor.toNat).map s.rx.byteAt).map .byte) [])) :=
  exec_rxResult_plus (by rw [rxResult_active ha, readRxd_of_le _ hle]; rfl)

theorem RxUnit.byteAt_written {rx : RxUnit} {i : Nat} {b : Byte} (h : rx.rxd.read i = some b) :
    rx.byteAt i = b := by
  rw [RxUnit.byteAt, h, Option.getD_some]

/-- Settles O38: RX_RESULT is turned away or answers the count and the bytes of RXD below it. -/
theorem rxResultFollowsItsRule : Obligations.RxResultFollowsItsRule := by
  refine fun s => ⟨fun ha => ?_, fun ha hle => ⟨_, _, exec_rxResult_active ha hle, ?count, ?length,
    fun k b hk hread => ?bytes⟩⟩
  · rw [exec_rxResult, rxResult, inRxSession_idle ha]
    rfl
  case count => exact BitVec.toNat_setWidth_of_le (by decide)
  case length => rw [List.length_map, List.length_range]
  case bytes =>
    rw [List.getElem?_map, List.getElem?_range hk, Option.map_some, RxUnit.byteAt_written hread]

/-- RX_OPEN while a session exists (R130). -/
theorem exec_rxOpen_busy {s : State} (c e : Bool) (cap : BitVec 30) (ha : s.rx.active = true) :
    exec (.rxOpen c e cap) s =
      .next (s.plus (raise .busy ((openOperand c e cap).setWidth 40) [] [])) := by
  simp only [exec, execRxOpen, rxOpen, ha, if_true, finishRx, State.endRx_self]

/-- The state once an RX_OPEN has begun a session of capacity n (R130). -/
def State.rxOpened (s : State) (c e : Bool) (n : Nat) : State :=
  s.endRx (s.rx.opened c e n) plainOk

/-- An RX_OPEN that meets no error begins the session of R130. -/
theorem exec_rxOpen_accepted {s : State} (c e : Bool) {cap : BitVec 30} (ha : s.rx.active = false)
    (hcap : requestedCapacity cap ≤ Config.rxMaxCapacity) :
    exec (.rxOpen c e cap) s = .next (s.rxOpened c e (requestedCapacity cap)) := by
  simp only [exec, execRxOpen, rxOpen, ha, Bool.false_eq_true, if_false, Nat.not_lt.2 hcap, finishRx]
  rfl

/-- The operand that BUSY records is format C's, field by field (R76, R201). -/
theorem setWidth_openOperand (c e : Bool) (cap : BitVec 30) :
    (openOperand c e cap).setWidth 40 =
      0#8 ++ cap ++ BitVec.ofBool e ++ BitVec.ofBool c := by
  rw [← commandWord_openOperand, BitVec.setWidth_eq_append (by decide)]
  rfl

/-- CAP is at most 65536 exactly when the capacity it asks for is: 0 asks for 65536 itself (R83). -/
theorem requestedCapacity_le_iff (cap : BitVec 30) :
    requestedCapacity cap ≤ Config.rxMaxCapacity ↔ cap.toNat ≤ 65536 := by
  by_cases h : cap = 0#30
  · subst h
    decide
  · rw [requestedCapacity_of_ne_zero h]
    rfl

theorem ofNat_requestedCapacity (cap : BitVec 30) :
    BitVec.ofNat 17 (requestedCapacity cap) = if cap = 0#30 then 65536#17 else cap.setWidth 17 := by
  rw [requestedCapacity]
  split
  · rfl
  · exact BitVec.ofNat_toNat 17 cap

/-- Settles O34: RX_OPEN's three outcomes, with the recorded operand and the capacity in the rule's own terms. -/
theorem rxOpenFollowsItsRule : Obligations.RxOpenFollowsItsRule := by
  refine fun s c e cap => ⟨fun ha => ?busy, fun ha hcap => ?tooLarge, fun ha hcap => ?opened⟩
  case busy =>
    rw [exec_rxOpen_busy c e cap ha, setWidth_openOperand]
    rfl
  case tooLarge =>
    exact exec_rxOpen_tooLarge c e ha
      (Nat.lt_of_not_le fun h => hcap.not_ge ((requestedCapacity_le_iff cap).1 h))
  case opened =>
    rw [exec_rxOpen_accepted c e ha ((requestedCapacity_le_iff cap).2 hcap), State.rxOpened,
      RxUnit.opened, ofNat_requestedCapacity]
    rfl

/-! ## RX_ACCEPT and the byte intake (41_rx_intake.md R131, R132) -/

theorem exec_rxAccept (v : Word) (s : State) :
    exec (.rxAccept v) s = finishRx s (rxAccept s.params v s.rx) := rfl

/-- RX_ACCEPT of a status code is RX_EVENT of it (R131, R163). -/
theorem rxAccept_status (p : Params) {v : Word} (hv : v.toInt < 0) (rx : RxUnit) :
    rxAccept p v rx = rxEvent p v rx := by
  have hstatus : isStatusCode v = true := decide_eq_true hv
  rw [rxAccept, rxEvent, if_pos hstatus]

theorem exec_rxAccept_status {v : Word} (hv : v.toInt < 0) (s : State) :
    exec (.rxAccept v) s = exec (.rxEvent v) s :=
  congrArg (finishRx s) (rxAccept_status s.params hv s.rx)

/-- After the end of stream the intake discards the byte. -/
theorem intake_ended (b : Byte) {rx : RxUnit} (he : rx.eos = true) :
    intake b rx = .ok (rx, raise .streamEnded (b.setWidth 40) [] []) :=
  if_pos he

/-- With no free slot the intake ends the stream. -/
theorem intake_overflow (b : Byte) {rx : RxUnit} (he : rx.eos = false)
    (hfull : rx.capacity ≤ rx.writeCursor) :
    intake b rx = .ok (rx.overflow, raise .bufferOverflow (b.setWidth 40) [] []) := by
  rw [intake, he, if_neg Bool.false_ne_true, if_pos hfull]

/-- With a free slot at an index that exists the intake stores the byte. -/
theorem intake_stores (b : Byte) {rx : RxUnit} (he : rx.eos = false)
    (hroom : rx.writeCursor < rx.capacity) (hmax : rx.writeCursor.toNat < Config.rxMaxCapacity) :
    intake b rx = .ok (rx.store b, plainOk) := by
  rw [intake, he, if_neg Bool.false_ne_true, if_neg (BitVec.not_le.2 hroom), if_pos hmax]
  rfl

section
variable {s : State} {v : Word} (ha : s.rx.active = true) (hv : 0 ≤ v.toInt)
include ha hv

theorem exec_rxAccept_ended (he : s.rx.eos = true) :
    exec (.rxAccept v) s =
      .next (s.plus (raise .streamEnded ((v.extractLsb' 0 8).setWidth 40) [] [])) := by
  rw [exec_rxAccept_data ha hv, intake_ended _ he, symbolByte_eq]
  rfl

theorem exec_rxAccept_overflow (he : s.rx.eos = false) (hfull : s.rx.capacity ≤ s.rx.writeCursor) :
    exec (.rxAccept v) s = .next (s.endRx s.rx.overflow
      (raise .bufferOverflow ((v.extractLsb' 0 8).setWidth 40) [] [])) := by
  rw [exec_rxAccept_data ha hv, intake_overflow _ he hfull, symbolByte_eq]
  rfl

theorem exec_rxAccept_stores (he : s.rx.eos = false) (hroom : s.rx.writeCursor < s.rx.capacity)
    (hmax : s.rx.writeCursor.toNat < Config.rxMaxCapacity) :
    exec (.rxAccept v) s = .next (s.endRx (s.rx.store (v.extractLsb' 0 8)) plainOk) := by
  rw [exec_rxAccept_data ha hv, intake_stores _ he hroom hmax, symbolByte_eq]
  rfl

end

/-- Settles O35: RX_ACCEPT is turned away, is RX_EVENT, or ends in one of the intake's three ways. -/
theorem rxAcceptFollowsItsRule : Obligations.RxAcceptFollowsItsRule := by
  refine fun s v => ⟨fun ha => ?_, fun hv => exec_rxAccept_status hv s, exec_rxAccept_ended,
    exec_rxAccept_overflow, fun ha hv he hroom hmax =>
      ⟨_, exec_rxAccept_stores ha hv he hroom hmax, Memory.read_write_same _ _ _,
        fun _ => Memory.read_write_other _ _⟩⟩
  rw [exec_rxAccept, rxAccept, inRxSession_idle ha]
  rfl

/-! ## A session of capacity n accepts n data bytes (41_rx_intake.md R137) -/

/-- The writes of several stored bytes, one after the other (R132). -/
def RxUnit.storeAll (rx : RxUnit) (bs : List Byte) : RxUnit :=
  { rx with
    rxd := rx.rxd.writeAll rx.writeCursor.toNat bs
    writeCursor := rx.writeCursor + BitVec.ofNat 17 bs.length }

theorem RxUnit.storeAll_nil (rx : RxUnit) : rx.storeAll [] = rx := by
  rw [RxUnit.storeAll, List.length_nil, BitVec.add_zero, Memory.writeAll]

/-- Storing several bytes is storing the first and then the others. -/
theorem RxUnit.storeAll_cons {rx : RxUnit} (hmax : rx.writeCursor.toNat < Config.rxMaxCapacity)
    (b : Byte) (bs : List Byte) : rx.storeAll (b :: bs) = (rx.store b).storeAll bs := by
  have hcursor : rx.writeCursor + BitVec.ofNat 17 (bs.length + 1) =
      rx.writeCursor + 1#17 + BitVec.ofNat 17 bs.length := by
    rw [BitVec.add_assoc, ← BitVec.ofNat_add, Nat.add_comm 1]
  rw [RxUnit.storeAll, RxUnit.storeAll, RxUnit.store_writeCursor_toNat hmax, List.length_cons, hcursor]
  rfl

theorem RxUnit.storeAll_writeCursor_toNat {rx : RxUnit} {bs : List Byte}
    (hfits : rx.writeCursor.toNat + bs.length ≤ Config.rxMaxCapacity) :
    (rx.storeAll bs).writeCursor.toNat = rx.writeCursor.toNat + bs.length := by
  have hlt : rx.writeCursor.toNat + bs.length < 2 ^ 17 := hfits.trans_lt (by decide)
  rw [RxUnit.storeAll, BitVec.toNat_add, BitVec.toNat_ofNat, Nat.add_mod_mod, Nat.mod_eq_of_lt hlt]

theorem RxUnit.read_storeAll {rx : RxUnit} {bs : List Byte} {k : Nat} {b : Byte}
    (hk : bs[k]? = some b) :
    (rx.storeAll bs).rxd.read (rx.writeCursor.toNat + k) = some b := by
  have hlt : k < bs.length := (List.getElem?_eq_some_iff.1 hk).1
  rw [RxUnit.storeAll, Memory.read_writeAll, if_pos (by omega), Nat.add_sub_cancel_left, hk]

/-- The state after data symbols that were all stored. -/
def State.afterSymbols (s : State) (vs : List Word) : State :=
  { s with
    rx := s.rx.storeAll (vs.map fun v => v.extractLsb' 0 8)
    responses := s.responses ++ List.replicate vs.length plainOk }

/-- As long as there is room every data symbol is stored, by induction on the symbols (R132). -/
theorem execAll_rxAccept {s : State} {vs : List Word} (ha : s.rx.active = true)
    (he : s.rx.eos = false) (hdata : ∀ v ∈ vs, 0 ≤ v.toInt)
    (hfits : s.rx.writeCursor.toNat + vs.length ≤ s.rx.capacity.toNat)
    (hmax : s.rx.capacity.toNat ≤ Config.rxMaxCapacity) :
    execAll (vs.map .rxAccept) s = .next (s.afterSymbols vs) := by
  induction vs generalizing s with
  | nil =>
    have hnone : s.afterSymbols [] = s := by
      simp only [State.afterSymbols, List.map_nil, RxUnit.storeAll_nil, List.length_nil,
        List.replicate_zero, List.append_nil]
    rw [hnone]
    rfl
  | cons v vs ih =>
    obtain ⟨hv, hvs⟩ := List.forall_mem_cons.1 hdata
    rw [List.length_cons] at hfits
    have hroom : s.rx.writeCursor < s.rx.capacity := by bv_omega
    have hindex : s.rx.writeCursor.toNat < Config.rxMaxCapacity := by omega
    have hnext := RxUnit.store_writeCursor_toNat hindex (v.extractLsb' 0 8)
    have hrest : (s.rx.store (v.extractLsb' 0 8)).writeCursor.toNat + vs.length ≤
        s.rx.capacity.toNat := by omega
    rw [List.map_cons, execAll, exec_rxAccept_stores ha hv he hroom hindex, andThen,
      ih (s := s.endRx (s.rx.store (v.extractLsb' 0 8)) plainOk) ha he hvs hrest hmax]
    simp only [State.afterSymbols, List.map_cons, RxUnit.storeAll_cons hindex, State.endRx,
      List.length_cons, List.replicate_succ, List.append_assoc, List.singleton_append]

theorem State.afterSymbols_writeCursor_toNat {s : State} {vs : List Word}
    (hfits : s.rx.writeCursor.toNat + vs.length ≤ Config.rxMaxCapacity) :
    (s.afterSymbols vs).rx.writeCursor.toNat = s.rx.writeCursor.toNat + vs.length := by
  have hlen : (vs.map fun v => v.extractLsb' 0 8).length = vs.length := List.length_map _
  rw [State.afterSymbols, RxUnit.storeAll_writeCursor_toNat (by rwa [hlen]), hlen]

theorem State.read_afterSymbols (s : State) {vs : List Word} {k : Nat} {x : Word}
    (hx : vs[k]? = some x) :
    (s.afterSymbols vs).rx.rxd.read (s.rx.writeCursor.toNat + k) = some (x.extractLsb' 0 8) :=
  RxUnit.read_storeAll (by rw [List.getElem?_map, hx, Option.map_some])

/-- The capacity of R137: CAP, or 65536 for CAP 0. -/
theorem requestedCapacity_eq {cap : BitVec 30} {n : Nat}
    (h : (cap = 0#30 ∧ n = 65536) ∨ (1 ≤ n ∧ n ≤ 65536 ∧ n = cap.toNat)) :
    requestedCapacity cap = n ∧ n ≤ Config.rxMaxCapacity := by
  rcases h with ⟨rfl, rfl⟩ | ⟨hpos, hmax, rfl⟩
  · exact ⟨rfl, le_rfl⟩
  · exact ⟨requestedCapacity_of_ne_zero (by rintro rfl; cases hpos), hmax⟩

/-- Settles O37: the session begins at cursor 0, so n symbols fill it by `execAll_rxAccept`, and the next finds no slot. -/
theorem capacityCountsDataBytes : Obligations.CapacityCountsDataBytes := by
  intro s c e cap n vs v ha hcap hlen hdata hv
  obtain ⟨rfl, hmax⟩ := requestedCapacity_eq hcap
  let u := s.rxOpened c e (requestedCapacity cap)
  have hcapacity : u.rx.capacity.toNat = requestedCapacity cap :=
    RxUnit.opened_capacity_toNat hmax c e s.rx
  have hstart : u.rx.writeCursor.toNat = 0 := rfl
  have hcursor : (u.afterSymbols vs).rx.writeCursor.toNat = requestedCapacity cap := by
    rw [State.afterSymbols_writeCursor_toNat (by omega), hstart, hlen, Nat.zero_add]
  refine ⟨u.afterSymbols vs, ?run, ?responses, hcapacity, hcursor, rfl, fun k x hx => ?bytes,
    exec_rxAccept_overflow (s := u.afterSymbols vs) rfl hv rfl (hcapacity.trans hcursor.symm).le⟩
  case run =>
    rw [execAll, exec_rxOpen_accepted c e ha hmax]
    exact execAll_rxAccept (s := u) rfl rfl hdata (by omega) (by omega)
  case responses =>
    rw [List.replicate_succ, ← hlen]
    exact List.append_assoc _ [plainOk] _
  case bytes =>
    have hread := u.read_afterSymbols hx
    rwa [hstart, Nat.zero_add] at hread

/-! ## EMIT_SILENCE has no effect on the machine (41_rx_intake.md R136, 10_state.md R38) -/

/-- The unit with another `RX.EMIT_SILENCE`. -/
def RxUnit.withSilence (b : Bool) (rx : RxUnit) : RxUnit := { rx with emitSilence := b }

/-- The end of an RX operation with another `RX.EMIT_SILENCE` in the unit. -/
def endWithSilence (b : Bool) (o : RxResult) : RxResult :=
  o.map fun (rx, r) => (rx.withSilence b, r)

theorem finishTx_withSilence (b : Bool) (s : State) (o : TxResult) :
    finishTx (s.withSilence b) o = mapNext (State.withSilence b) (finishTx s o) := by
  cases o <;> rfl

/-- An RX operation that ends the same but for EMIT_SILENCE does so for the whole state. -/
theorem finishRx_withSilence {s : State} {b b' : Bool} {o o' : RxResult}
    (h : o' = endWithSilence b' o) :
    finishRx (s.withSilence b) o' = mapNext (State.withSilence b') (finishRx s o) := by
  subst h
  cases o <;> rfl

theorem inRxSession_withSilence {b : Bool} {rx : RxUnit} {x : Word} {body body' : RxResult}
    (h : body' = endWithSilence b body) :
    inRxSession (rx.withSilence b) x body' = endWithSilence b (inRxSession rx x body) := by
  subst h
  cases ha : rx.active with
  | false =>
    rw [inRxSession_idle ha, inRxSession_idle (rx := rx.withSilence b) ha]
    rfl
  | true => rw [inRxSession_active ha, inRxSession_active (rx := rx.withSilence b) ha]

theorem intake_withSilence (b : Byte) (e : Bool) (rx : RxUnit) :
    intake b (rx.withSilence e) = endWithSilence e (intake b rx) := by
  unfold intake RxUnit.withSilence
  split_ifs <;> rfl

theorem applyStatus_withSilence (p : Params) (code : Word) (e : Bool) (rx : RxUnit) :
    applyStatus p code (rx.withSilence e) = (applyStatus p code rx).withSilence e := by
  unfold applyStatus RxUnit.loseCarrier RxUnit.withSilence
  split_ifs <;> rfl

theorem statusHandler_withSilence (p : Params) (code : Word) (e : Bool) (rx : RxUnit) :
    statusHandler p code (rx.withSilence e) = endWithSilence e (statusHandler p code rx) := by
  rw [statusHandler, applyStatus_withSilence]
  rfl

theorem lineBit_withSilence (b e : Bool) (rx : RxUnit) :
    lineBit b (rx.withSilence e) = endWithSilence e (lineBit b rx) := by
  have hstate : (rx.withSilence e).rxdState = rx.rxdState := rfl
  have hcount : (rx.withSilence e).rxdCount = rx.rxdCount := rfl
  simp only [lineBit, hstate, hcount]
  cases rx.rxdState with
  | hunt => cases b <;> rfl
  | data =>
    simp only
    split_ifs
    · rfl
    · cases b with
      | false => rfl
      | true => exact intake_withSilence rx.rxdShift e rx.toHunt

theorem rxAccept_withSilence (p : Params) (v : Word) (e : Bool) (rx : RxUnit) :
    rxAccept p v (rx.withSilence e) = endWithSilence e (rxAccept p v rx) := by
  refine inRxSession_withSilence ?_
  split
  · exact statusHandler_withSilence p v e rx
  · exact intake_withSilence _ e rx

theorem rxResult_withSilence (e : Bool) (rx : RxUnit) :
    rxResult (rx.withSilence e) = endWithSilence e (rxResult rx) := by
  refine inRxSession_withSilence ?_
  have hread : readRxd (rx.withSilence e) = readRxd rx := rfl
  have hcursor : (rx.withSilence e).writeCursor = rx.writeCursor := rfl
  rw [hread, hcursor]
  cases readRxd rx rx.writeCursor.toNat <;> rfl

/-- RX_OPEN reads no EMIT_SILENCE, and a session that it begins has its operand's. -/
theorem rxOpen_withSilence (c e : Bool) (cap : BitVec 30) (b : Bool) (rx : RxUnit) :
    ∃ b', rxOpen c e cap (rx.withSilence b) = endWithSilence b' (rxOpen c e cap rx) := by
  unfold rxOpen RxUnit.withSilence
  split_ifs
  · exact ⟨b, rfl⟩
  · exact ⟨b, rfl⟩
  · exact ⟨e, rfl⟩

/-- RX_CLOSE reads no EMIT_SILENCE, and clears it if it ends a session. -/
theorem rxClose_withSilence (b : Bool) (rx : RxUnit) :
    ∃ b', rxClose (rx.withSilence b) = endWithSilence b' (rxClose rx) := by
  unfold rxClose inRxSession RxUnit.withSilence
  split_ifs
  · exact ⟨false, rfl⟩
  · exact ⟨b, rfl⟩

/-- No operation but RX_RDSR shows EMIT_SILENCE: its outcome is the same but for that bit of the unit. -/
theorem exec_withSilence {i : Instr} (hi : i ≠ .rxRdsr) (s : State) (b : Bool) :
    ∃ b', exec i (s.withSilence b) = mapNext (State.withSilence b') (exec i s) := by
  cases i with
  | txOpen _ | txNextBit | txClose => exact ⟨b, finishTx_withSilence b s _⟩
  | txRdsr => exact ⟨b, finishTx_withSilence b s (txRdsr s.params s.tx)⟩
  | rxOpen c e cap =>
    obtain ⟨b', h⟩ := rxOpen_withSilence c e cap b s.rx
    exact ⟨b', finishRx_withSilence h⟩
  | rxAccept v => exact ⟨b, finishRx_withSilence (rxAccept_withSilence s.params v b s.rx)⟩
  | rxEvent code =>
    exact ⟨b, finishRx_withSilence
      (inRxSession_withSilence (statusHandler_withSilence s.params code b s.rx))⟩
  | rxLinebit l =>
    exact ⟨b, finishRx_withSilence (inRxSession_withSilence (lineBit_withSilence l b s.rx))⟩
  | rxResult => exact ⟨b, finishRx_withSilence (rxResult_withSilence b s.rx)⟩
  | rxClose =>
    obtain ⟨b', h⟩ := rxClose_withSilence b s.rx
    exact ⟨b', finishRx_withSilence h⟩
  | rxRdsr => exact absurd rfl hi

/-- EMIT_SILENCE is bit 9 of RXSR0 and no other (R37). -/
theorem getLsbD_rxsr0_withSilence (b : Bool) (rx : RxUnit) {j : Nat} (hj : j ≠ 9) :
    (rxsr0 (rx.withSilence b)).getLsbD j = (rxsr0 rx).getLsbD j := by
  rw [getLsbD_rxsr0, getLsbD_rxsr0]
  iterate 7 refine ite_congr rfl (fun _ => rfl) fun _ => ?_
  have h10 : ¬ j < 10 := by omega
  rw [if_neg h10, if_neg h10]
  rfl

/-- Settles O42: `exec_withSilence` for the operations, and RXSR0's bits for RX_RDSR. -/
theorem emitSilenceOnlyDrivesItsPort : Obligations.EmitSilenceOnlyDrivesItsPort := by
  refine ⟨fun s => Bool.and_eq_true_iff, fun i s b hi => exec_withSilence hi s b,
    fun s b => ⟨rxsr0 s.rx, rxsr0 (s.rx.withSilence b), rxsr1 s.rx, rxsr2 s.rx, rfl, rfl,
      getLsbD_rxsr0 _ 9, getLsbD_rxsr0 _ 9, fun j => getLsbD_rxsr0_withSilence b s.rx⟩,
    fun s t c e cap ha hcap h => ?_⟩
  rw [exec_rxOpen_accepted c e ha ((requestedCapacity_le_iff cap).2 hcap),
    Host.Outcome.next.injEq] at h
  subst h
  rfl

end Sys2Proof.Machine

/-! ## The status handler's transition table (42_rx_status.md R160 to R163) -/

namespace Sys2Proof.Machine

/-- SIG_CARRIER_LOST is the one code that reads as −1 (R74). -/
theorem toInt_eq_neg_one_iff (code : Word) : code.toInt = -1 ↔ code = Config.sigCarrierLost := by
  rw [← BitVec.toInt_inj]
  rfl

section
variable {rx : RxUnit}

/-- After the end of the stream a status code moves nothing (R161). -/
theorem applyStatus_ended (p : Params) (code : Word) (hended : rx.state = .streamEnded) :
    applyStatus p code rx = rx :=
  if_pos hended

theorem applyStatus_lost (p : Params) (hopen : rx.state ≠ .streamEnded) :
    applyStatus p Config.sigCarrierLost rx = rx.loseCarrier := by
  rw [applyStatus, if_neg hopen, if_pos rfl]

theorem applyStatus_carrierUp (p : Params) (hopen : rx.state ≠ .streamEnded)
    (hlost : p.sigCarrierUp ≠ Config.sigCarrierLost) :
    applyStatus p p.sigCarrierUp rx = { rx with state := .carrierPresent } := by
  rw [applyStatus, if_neg hopen, if_neg hlost, if_pos rfl]

/-- A code other than the two carrier codes moves nothing in any state (R161). -/
theorem applyStatus_other {p : Params} {code : Word} (hlost : code ≠ Config.sigCarrierLost)
    (hup : code ≠ p.sigCarrierUp) : applyStatus p code rx = rx := by
  rw [applyStatus, if_neg hlost, if_neg hup, ite_self]

theorem RxUnit.loseCarrier_of_cont (hcont : rx.cont = true) :
    rx.loseCarrier = { rx.toHunt with state := .carrierLost } :=
  if_pos hcont

theorem RxUnit.loseCarrier_of_not_cont (hcont : rx.cont = false) :
    rx.loseCarrier = { rx.toHunt with state := .streamEnded, eos := true } :=
  if_neg (hcont ▸ Bool.false_ne_true)

end

theorem exec_rxEvent (code : Word) (s : State) :
    exec (.rxEvent code) s = finishRx s (rxEvent s.params code s.rx) := rfl

/-- In a session RX_EVENT is the status handler, which always answers OK with its event (R162, R163). -/
theorem exec_rxEvent_active {s : State} (ha : s.rx.active = true) (code : Word) :
    exec (.rxEvent code) s =
      .next (s.endRx (applyStatus s.params code s.rx) (answer [] [.status code])) := by
  rw [exec_rxEvent, rxEvent, inRxSession_active ha]
  rfl

/-- Settles O44: RX_EVENT is turned away or is `applyStatus`, whose equations are the rows of the table. -/
theorem rxEventFollowsTheTransitionTable : Obligations.RxEventFollowsTheTransitionTable := by
  intro s code
  simp only [ne_eq, toInt_eq_neg_one_iff]
  refine ⟨fun ha => ?idle, fun hneg => exec_rxAccept_status hneg s, fun ha =>
    ⟨_, exec_rxEvent_active ha code, applyStatus_ended s.params code, ?ends, ?lost, ?up,
      applyStatus_other⟩⟩
  case idle =>
    rw [exec_rxEvent, rxEvent, inRxSession_idle ha]
    rfl
  case ends =>
    rintro hopen rfl hcont
    rw [applyStatus_lost _ hopen, RxUnit.loseCarrier_of_not_cont hcont]
    rfl
  case lost =>
    rintro hopen rfl hcont
    rw [applyStatus_lost _ hopen, RxUnit.loseCarrier_of_cont hcont]
    rfl
  case up =>
    rintro hopen hlost rfl
    exact applyStatus_carrierUp _ hopen hlost

/-! ## The end of the stream (42_rx_status.md R164) -/

/-- A status code sets EOS only as a carrier-lost code with CONTINUE = 0, and then leaves OVF as it was. -/
theorem applyStatus_sets_eos {p : Params} {code : Word} {rx : RxUnit} (hopen : rx.eos = false)
    (hset : (applyStatus p code rx).eos = true) :
    code = Config.sigCarrierLost ∧ rx.cont = false ∧ (applyStatus p code rx).ovf = rx.ovf := by
  rcases applyStatus_cases p code rx with e | ⟨-, hlost, hcont, e⟩ | ⟨-, -, -, e⟩ | ⟨-, -, -, e⟩ <;>
    rw [e] at hset ⊢
  · exact Bool.noConfusion (hopen.symm.trans hset)
  · exact ⟨hlost, hcont, rfl⟩
  · exact Bool.noConfusion (hopen.symm.trans hset)
  · exact Bool.noConfusion (hopen.symm.trans hset)

/-- The intake sets EOS only by BUFFER_OVERFLOW, which sets OVF too (R132). -/
theorem intake_sets_eos {b : Byte} {rx u : RxUnit} {r : Response} (h : intake b rx = .ok (u, r))
    (hopen : rx.eos = false) (hset : u.eos = true) :
    u.ovf = true ∧ rx.capacity ≤ rx.writeCursor ∧
      r = raise .bufferOverflow (b.setWidth 40) [] [] := by
  rcases intake_cases h with ⟨-, rfl, -⟩ | ⟨-, hfull, rfl, rfl⟩ | ⟨-, -, -, rfl, -⟩
  · exact Bool.noConfusion (hopen.symm.trans hset)
  · exact ⟨RxUnit.overflow_ovf rx, hfull, rfl⟩
  · exact Bool.noConfusion (hopen.symm.trans hset)

/-- A line bit sets EOS only through the intake (R181). -/
theorem lineBit_sets_eos {b : Bool} {rx u : RxUnit} {r : Response} (h : lineBit b rx = .ok (u, r))
    (hopen : rx.eos = false) (hset : u.eos = true) :
    u.ovf = true ∧ rx.capacity ≤ rx.writeCursor ∧
      r = raise .bufferOverflow (rx.rxdShift.setWidth 40) [] [] := by
  rcases lineBit_cases h with ⟨-, -, rfl, -⟩ | ⟨-, -, rfl, -⟩ | ⟨-, -, rfl, -⟩ | ⟨-, -, -, hin⟩ |
    ⟨-, -, -, rfl, -⟩
  case inr.inr.inr.inl => exact intake_sets_eos (rx := rx.toHunt) hin hopen hset
  all_goals exact Bool.noConfusion (hopen.symm.trans hset)

/-- EOS goes from 0 to 1 by a carrier-lost code with CONTINUE = 0, or by BUFFER_OVERFLOW, which alone sets OVF. -/
theorem RxEnds.sets_eos {p : Params} {rx u : RxUnit} {i : Instr} {r : Response}
    (h : RxEnds p rx i u r) (hopen : rx.eos = false) (hset : u.eos = true) :
    (rx.cont = false ∧ u.ovf = rx.ovf ∧
      (i = .rxEvent Config.sigCarrierLost ∨ i = .rxAccept Config.sigCarrierLost)) ∨
    (u.ovf = true ∧ rx.capacity ≤ rx.writeCursor ∧
      ∃ info, r = raise .bufferOverflow info [] []) := by
  cases h with
  | rdsr | busy | tooLarge | noSession | result => exact Bool.noConfusion (hopen.symm.trans hset)
  | opened | closed => cases hset
  | acceptStatus v _ _ =>
    obtain ⟨rfl, hcont, hovf⟩ := applyStatus_sets_eos hopen hset
    exact .inl ⟨hcont, hovf, .inr rfl⟩
  | acceptData v _ _ _ _ hin =>
    obtain ⟨hovf, hfull, hr⟩ := intake_sets_eos hin hopen hset
    exact .inr ⟨hovf, hfull, _, hr⟩
  | event code _ =>
    obtain ⟨rfl, hcont, hovf⟩ := applyStatus_sets_eos hopen hset
    exact .inl ⟨hcont, hovf, .inl rfl⟩
  | lineBit b _ _ _ hb =>
    obtain ⟨hovf, hfull, hr⟩ := lineBit_sets_eos hb hopen hset
    exact .inr ⟨hovf, hfull, _, hr⟩

/-- With CONTINUE = 1 no status code changes EOS (R164). -/
theorem applyStatus_eos_of_cont (p : Params) (code : Word) {rx : RxUnit} (hcont : rx.cont = true) :
    (applyStatus p code rx).eos = rx.eos := by
  cases he : rx.eos with
  | true => exact (applyStatus_keepsFlags p code rx).2 he
  | false =>
    refine Bool.eq_false_iff.2 fun hset => ?_
    obtain ⟨-, hnot, -⟩ := applyStatus_sets_eos he hset
    exact Bool.noConfusion (hcont.symm.trans hnot)

/-- With CONTINUE = 0 a carrier-lost code leaves EOS at 1: in STREAM_ENDED it is 1 already (R31, R164). -/
theorem RxUnit.Legal.applyStatus_lost_eos {rx : RxUnit} (h : rx.Legal) (p : Params)
    (hcont : rx.cont = false) : (Machine.applyStatus p Config.sigCarrierLost rx).eos = true := by
  by_cases hended : rx.state = .streamEnded
  · rw [applyStatus_ended p _ hended]
    exact h.eos_iff.2 hended
  · rw [applyStatus_lost p hended, RxUnit.loseCarrier_of_not_cont hcont]

/-- Settles O45: both status paths are `applyStatus`, and `RxEnds.sets_eos` says what sets EOS. -/
theorem endOfStreamLaws : Obligations.EndOfStreamLaws := by
  refine ⟨fun i s t code hs ha hi h => ?status, fun i s t ha hcont he h hset => ?overflow,
    fun s v ha he hv => exec_rxAccept_ended ha hv he⟩
  case status =>
    have hevent : exec i s = exec (.rxEvent code) s := by
      rcases hi with rfl | ⟨rfl, hneg⟩
      · rfl
      · exact exec_rxAccept_status hneg s
    rw [hevent, exec_rxEvent_active ha, Host.Outcome.next.injEq] at h
    subst h
    refine ⟨fun hcont hcode => ?_, (applyStatus_keepsFlags s.params code s.rx).2,
      applyStatus_eos_of_cont s.params code⟩
    obtain rfl := (toInt_eq_neg_one_iff code).1 hcode
    exact hs.rx.applyStatus_lost_eos s.params hcont
  case overflow =>
    rcases exec_ends h with ⟨-, u, r, rfl, -⟩ | ⟨-, u, r, rfl, hu⟩
    · exact Bool.noConfusion (he.symm.trans hset)
    · rcases hu.sets_eos he hset with ⟨hnot, -⟩ | ⟨-, -, info, rfl⟩
      · exact Bool.noConfusion (hcont.symm.trans hnot)
      · exact ⟨info, rfl⟩

/-! ## LISTENING is never entered within a session (42_rx_status.md R165) -/

theorem applyStatus_listening {p : Params} {code : Word} {rx : RxUnit}
    (hl : (applyStatus p code rx).state = .listening) : rx.state = .listening := by
  rcases applyStatus_cases p code rx with e | ⟨-, -, -, e⟩ | ⟨-, -, -, e⟩ | ⟨-, -, -, e⟩ <;>
    rw [e] at hl
  · exact hl
  · cases hl
  · cases hl
  · cases hl

theorem intake_listening {b : Byte} {rx u : RxUnit} {r : Response} (h : intake b rx = .ok (u, r))
    (hl : u.state = .listening) : rx.state = .listening := by
  rcases intake_cases h with ⟨-, rfl, -⟩ | ⟨-, -, rfl, -⟩ | ⟨-, -, -, rfl, -⟩
  · exact hl
  · cases hl
  · exact hl

theorem lineBit_listening {b : Bool} {rx u : RxUnit} {r : Response}
    (h : lineBit b rx = .ok (u, r)) (hl : u.state = .listening) : rx.state = .listening := by
  rcases lineBit_cases h with ⟨-, -, rfl, -⟩ | ⟨-, -, rfl, -⟩ | ⟨-, -, rfl, -⟩ | ⟨-, -, -, hin⟩ |
    ⟨-, -, -, rfl, -⟩
  case inr.inr.inr.inl => exact intake_listening (rx := rx.toHunt) hin hl
  all_goals exact hl

/-- An RX operation that ends in LISTENING began there, or is RX_OPEN or RX_CLOSE. -/
theorem RxEnds.listening_cases {p : Params} {rx u : RxUnit} {i : Instr} {r : Response}
    (h : RxEnds p rx i u r) (hl : u.state = .listening) :
    rx.state = .listening ∨ i = .rxClose ∨ ∃ c e k, i = .rxOpen c e k := by
  cases h with
  | rdsr | noSession | result => exact .inl hl
  | busy c e k _ | tooLarge c e k _ _ | opened c e k _ _ => exact .inr (.inr ⟨c, e, k, rfl⟩)
  | acceptStatus | event => exact .inl (applyStatus_listening hl)
  | acceptData _ _ _ _ _ hin => exact .inl (intake_listening hin hl)
  | lineBit _ _ _ _ hb => exact .inl (lineBit_listening hb hl)
  | closed => exact .inr (.inl rfl)

/-- Settles O48: TX's operations leave RX alone, and `RxEnds.listening_cases` covers those of RX. -/
theorem listeningIsEnteredOnlyByOpenAndClose :
    Obligations.ListeningIsEnteredOnlyByOpenAndClose := by
  intro i s t h hne hl
  rcases exec_ends h with ⟨-, u, r, rfl, -⟩ | ⟨-, u, r, rfl, hu⟩
  · exact absurd hl hne
  · exact (hu.listening_cases hl).resolve_left hne

end Sys2Proof.Machine

/-! ## The deframer, line bit by line bit (43_rx_deframer.md R181, R182) -/

namespace Sys2Proof.Machine

section
variable {rx : RxUnit}

theorem lineBit_hunt_idle (hhunt : rx.rxdState = .hunt) : lineBit true rx = .ok (rx, plainOk) := by
  rw [lineBit, hhunt]
  rfl

theorem lineBit_hunt_start (hhunt : rx.rxdState = .hunt) :
    lineBit false rx = .ok (rx.startFrame, plainOk) := by
  rw [lineBit, hhunt]
  rfl

theorem lineBit_takeBit (b : Bool) (hdata : rx.rxdState = .data) (hcount : rx.rxdCount < 8#4) :
    lineBit b rx = .ok (rx.takeBit b, plainOk) := by
  simp only [lineBit, hdata, hcount, if_true]
  rfl

/-- A stop bit of 0 discards the frame (R182). -/
theorem lineBit_framingError (hdata : rx.rxdState = .data) (hcount : 8#4 ≤ rx.rxdCount) :
    lineBit false rx = .ok (rx.toHunt, answer [] [.framingError rx.rxdShift]) := by
  simp only [lineBit, hdata, BitVec.not_lt.2 hcount, judgeStopBit, if_false, Bool.false_eq_true]

end

/-- In a session RX_LINEBIT ends as its line bit does. -/
theorem exec_rxLinebit_of_lineBit {s : State} {b : Bool} {u : RxUnit} {r : Response}
    (ha : s.rx.active = true) (h : lineBit b s.rx = .ok (u, r)) :
    exec (.rxLinebit b) s = .next (s.endRx u r) := by
  rw [exec_rxLinebit_active b ha, h]
  rfl

/-- Settles O51: at the stop-bit position a 0 is `lineBit_framingError`. -/
theorem framingErrorDiscardsTheFrame : Obligations.FramingErrorDiscardsTheFrame :=
  fun _ ha hdata hcount =>
    exec_rxLinebit_of_lineBit ha (lineBit_framingError hdata (BitVec.le_def.2 hcount.ge))

/-- Settles O49: the two bits in HUNT, and `getLsbD_putBit` for a data bit. -/
theorem rxLinebitTakesTheFrame : Obligations.RxLinebitTakesTheFrame := by
  refine fun s ha => ⟨fun hhunt => ⟨?idle, ?start⟩, fun b hdata hcount => ?data⟩
  case idle => exact exec_rxLinebit_of_lineBit ha (lineBit_hunt_idle hhunt)
  case start => exact exec_rxLinebit_of_lineBit ha (lineBit_hunt_start hhunt)
  case data =>
    refine ⟨_, _, exec_rxLinebit_of_lineBit ha (lineBit_takeBit b hdata (BitVec.lt_def.2 hcount)),
      ?_, fun i _ => getLsbD_putBit _ _ b hcount i⟩
    bv_omega

/-- Settles O50: a stop bit of 1 is the intake with the deframer back in HUNT, which ends in one of its three ways. -/
theorem rxLinebitDeliversTheByte : Obligations.RxLinebitDeliversTheByte := by
  intro s ha hdata hcount
  have hstop := lineBit_stopBit hdata (BitVec.le_def.2 hcount.ge)
  refine ⟨fun he => ?ended, fun he hfull => ?overflow, fun he hroom hmax => ⟨_, ?stores,
    Memory.read_write_same _ _ _, fun _ => Memory.read_write_other _ _⟩⟩
  case ended => exact exec_rxLinebit_of_lineBit ha (hstop.trans (intake_ended (rx := s.rx.toHunt) _ he))
  case overflow =>
    exact exec_rxLinebit_of_lineBit ha (hstop.trans (intake_overflow (rx := s.rx.toHunt) _ he hfull))
  case stores =>
    exact exec_rxLinebit_of_lineBit ha
      (hstop.trans (intake_stores (rx := s.rx.toHunt) _ he hroom hmax))

/-! ## A byte is delivered on the stop bit and never sooner (43_rx_deframer.md R184) -/

/-- A line bit that moves the write cursor is a 1 at the stop-bit position, and stores the byte taken. -/
theorem lineBit_moves_cursor {b : Bool} {rx u : RxUnit} {r : Response}
    (h : lineBit b rx = .ok (u, r)) (hmoved : u.writeCursor ≠ rx.writeCursor) :
    b = true ∧ rx.rxdState = .data ∧ 8#4 ≤ rx.rxdCount ∧
      rx.writeCursor.toNat < Config.rxMaxCapacity ∧ u = rx.toHunt.store rx.rxdShift := by
  rcases lineBit_cases h with ⟨-, -, rfl, -⟩ | ⟨-, -, rfl, -⟩ | ⟨-, -, rfl, -⟩ |
    ⟨hdata, hcount, hb, hin⟩ | ⟨-, -, -, rfl, -⟩
  case inr.inr.inr.inl =>
    rcases intake_cases hin with ⟨-, rfl, -⟩ | ⟨-, -, rfl, -⟩ | ⟨-, -, hmax, hu, -⟩
    · exact absurd rfl hmoved
    · exact absurd rfl hmoved
    · exact ⟨hb, hdata, hcount, hmax, hu⟩
  all_goals exact absurd rfl hmoved

theorem RxUnit.loseCarrier_deframer (rx : RxUnit) :
    rx.loseCarrier.rxdState = .hunt ∧ rx.loseCarrier.rxdCount = 0#4 ∧
      rx.loseCarrier.rxdShift = 0#8 := by
  cases hcont : rx.cont with
  | true => rw [RxUnit.loseCarrier_of_cont hcont]; exact ⟨rfl, rfl, rfl⟩
  | false => rw [RxUnit.loseCarrier_of_not_cont hcont]; exact ⟨rfl, rfl, rfl⟩

/-- No code but carrier lost touches the deframer (R161). -/
theorem applyStatus_deframer (p : Params) {code : Word} (rx : RxUnit)
    (hcode : code ≠ Config.sigCarrierLost) :
    (applyStatus p code rx).rxdState = rx.rxdState ∧ (applyStatus p code rx).rxdCount = rx.rxdCount ∧
      (applyStatus p code rx).rxdShift = rx.rxdShift := by
  rcases applyStatus_cases p code rx with e | ⟨-, hlost, -⟩ | ⟨-, hlost, -⟩ | ⟨-, -, -, e⟩
  · rw [e]; exact ⟨rfl, rfl, rfl⟩
  · exact absurd hlost hcode
  · exact absurd hlost hcode
  · rw [e]; exact ⟨rfl, rfl, rfl⟩

/-- Settles O52: only the intake of a stop bit moves the cursor, and of the status codes only carrier lost resets the
deframer. -/
theorem bytesAreDeliveredOnTheStopBit : Obligations.BytesAreDeliveredOnTheStopBit := by
  refine ⟨fun s t b hs h hmoved => ?delivery, fun s t code ha h => ?status⟩
  case delivery =>
    obtain ⟨u, r, rfl, hu⟩ := exec_rx_ends rfl h
    cases hu with
    | noSession => exact absurd rfl hmoved
    | lineBit _ _ _ _ hb =>
      obtain ⟨hone, hdata, hcount, hmax, rfl⟩ := lineBit_moves_cursor hb hmoved
      obtain ⟨hle, -⟩ := hs.rx.data_range hdata
      exact ⟨hone, hdata, BitVec.le_antisymm hle hcount,
        RxUnit.store_writeCursor_toNat (rx := s.rx.toHunt) hmax _, Memory.read_write_same _ _ _⟩
  case status =>
    rw [exec_rxEvent_active ha, Host.Outcome.next.injEq] at h
    subst h
    simp only [ne_eq, toInt_eq_neg_one_iff]
    refine ⟨?_, applyStatus_deframer s.params s.rx⟩
    rintro rfl hopen
    rw [State.endRx_rx, applyStatus_lost _ hopen]
    exact s.rx.loseCarrier_deframer

/-! ## Line bits that all give a plain OK -/

/-- The state once n line bits, each with a plain OK, have led to a unit. -/
def State.heard (s : State) (u : RxUnit) (n : Nat) : State :=
  { s with rx := u, responses := s.responses ++ List.replicate n plainOk }

theorem State.heard_heard (s : State) (u v : RxUnit) (m n : Nat) :
    (s.heard u m).heard v n = s.heard v (m + n) := by
  simp only [State.heard, List.append_assoc, List.replicate_append_replicate]

theorem State.heard_zero (s : State) : s.heard s.rx 0 = s := by
  simp only [State.heard, List.replicate_zero, List.append_nil]

/-- Feeding line bits to a unit gives a plain OK for each of them and leads to another unit. -/
def RxUnit.Hears (rx : RxUnit) (bits : List Bool) (u : RxUnit) : Prop :=
  ∀ s : State, s.rx = rx → execAll (bits.map .rxLinebit) s = .next (s.heard u bits.length)

theorem RxUnit.Hears.nil (rx : RxUnit) : rx.Hears [] rx := by
  rintro s rfl
  exact congrArg _ s.heard_zero.symm

theorem RxUnit.Hears.append {rx u v : RxUnit} {as bs : List Bool} (h : rx.Hears as u)
    (h' : u.Hears bs v) : rx.Hears (as ++ bs) v := by
  intro s hs
  rw [List.map_append, execAll_append, h s hs, andThen, h' (s.heard u as.length) rfl,
    State.heard_heard, List.length_append]

theorem RxUnit.Hears.of_lineBit {rx u : RxUnit} {b : Bool} (ha : rx.active = true)
    (h : lineBit b rx = .ok (u, plainOk)) : rx.Hears [b] u := by
  rintro s rfl
  rw [List.map_singleton, execAll, exec_rxLinebit_of_lineBit ha h]
  rfl

/-- Idle 1s in HUNT change nothing (R183). -/
theorem RxUnit.Hears.idle {rx : RxUnit} (ha : rx.active = true) (hhunt : rx.rxdState = .hunt)
    (k : Nat) : rx.Hears (List.replicate k true) rx := by
  induction k with
  | zero => exact .nil rx
  | succ k ih => exact (RxUnit.Hears.of_lineBit ha (lineBit_hunt_idle hhunt)).append ih

/-! ## Frames on the line (43_rx_deframer.md R181, R183) -/

/-- The unit inside the frame of byte b, with k data bits taken: the low k bits of b. -/
def RxUnit.midFrame (rx : RxUnit) (b : Byte) (k : Nat) : RxUnit :=
  { rx with rxdState := .data, rxdCount := BitVec.ofNat 4 k, rxdShift := (b.setWidth k).setWidth 8 }

theorem RxUnit.startFrame_eq_midFrame (rx : RxUnit) (b : Byte) : rx.startFrame = rx.midFrame b 0 := by
  have hshift : (b.setWidth 0).setWidth 8 = 0#8 := BitVec.eq_of_getLsbD_eq fun i hi => by simp
  rw [RxUnit.midFrame, hshift]
  rfl

/-- Taking the frame's next data bit. -/
theorem RxUnit.midFrame_takeBit (rx : RxUnit) (b : Byte) {k : Nat} (hk : k < 8) :
    (rx.midFrame b k).takeBit (b.getLsbD k) = rx.midFrame b (k + 1) := by
  have hcount : (BitVec.ofNat 4 k).toNat = k := Nat.mod_eq_of_lt (by omega)
  have hshift : putBit ((b.setWidth k).setWidth 8) k (b.getLsbD k) =
      (b.setWidth (k + 1)).setWidth 8 := by
    refine BitVec.eq_of_getLsbD_eq fun i hi => ?_
    rw [getLsbD_putBit _ _ _ hk]
    simp only [BitVec.getLsbD_setWidth, hi, decide_true, Bool.true_and]
    split
    · next h => subst h; simp
    · next h => simp only [show i < k + 1 ↔ i < k by omega]
  rw [RxUnit.takeBit, RxUnit.midFrame]
  simp only [hcount, hshift, ← BitVec.ofNat_add]
  rfl

/-- Up to eight data bits. -/
theorem RxUnit.Hears.dataBits {rx : RxUnit} (ha : rx.active = true) (b : Byte) {k : Nat} (hk : k ≤ 8) :
    (rx.midFrame b 0).Hears ((List.range k).map b.getLsbD) (rx.midFrame b k) := by
  induction k with
  | zero => exact .nil _
  | succ k ih =>
    have hcount : (rx.midFrame b k).rxdCount < 8#4 := by
      rw [RxUnit.midFrame, BitVec.lt_def, BitVec.toNat_ofNat, Nat.mod_eq_of_lt (by omega)]
      exact hk
    have hbit := lineBit_takeBit (rx := rx.midFrame b k) (b.getLsbD k) rfl hcount
    rw [rx.midFrame_takeBit b hk] at hbit
    rw [List.range_succ, List.map_append]
    exact (ih (Nat.le_of_succ_le hk)).append (.of_lineBit ha hbit)

/-- A frame is its start bit, the eight data bits and its stop bit (R70). -/
theorem map_frameBit_range (b : Byte) :
    (List.range 10).map (frameBit b) = [false] ++ (List.range 8).map b.getLsbD ++ [true] := rfl

section
variable {rx : RxUnit} (ha : rx.active = true) (hclear : rx.toHunt = rx) (he : rx.eos = false)
include ha hclear he

/-- With a free slot, the frame of a byte stores that byte and leaves the deframer clear (R181, R132). -/
theorem RxUnit.Hears.frame (hroom : rx.writeCursor < rx.capacity)
    (hmax : rx.writeCursor.toNat < Config.rxMaxCapacity) (b : Byte) :
    rx.Hears ((List.range 10).map (frameBit b)) (rx.store b) := by
  have hstart := lineBit_hunt_start (rx := rx) (hclear ▸ RxUnit.toHunt_rxdState rx)
  have hbyte : (rx.midFrame b 8).rxdShift = b := by
    rw [RxUnit.midFrame, BitVec.setWidth_eq, BitVec.setWidth_eq]
  have hstop : lineBit true (rx.midFrame b 8) = .ok (rx.store b, plainOk) := by
    rw [lineBit_stopBit (rx := rx.midFrame b 8) rfl (BitVec.le_refl 8#4), hbyte]
    exact (intake_stores (rx := rx.toHunt) b he hroom hmax).trans (by rw [hclear])
  rw [rx.startFrame_eq_midFrame b] at hstart
  rw [map_frameBit_range]
  exact ((of_lineBit ha hstart).append (dataBits ha b le_rfl)).append (of_lineBit ha hstop)

/-- As long as there is room, the frames of a message store it, by induction on its bytes (R183). -/
theorem RxUnit.Hears.message {m : List Byte}
    (hfits : rx.writeCursor.toNat + m.length ≤ rx.capacity.toNat)
    (hcap : rx.capacity.toNat ≤ Config.rxMaxCapacity) : rx.Hears (lineBits m) (rx.storeAll m) := by
  induction m generalizing rx with
  | nil => rw [RxUnit.storeAll_nil]; exact .nil rx
  | cons b m ih =>
    rw [List.length_cons] at hfits
    have hroom : rx.writeCursor < rx.capacity := by bv_omega
    have hmax : rx.writeCursor.toNat < Config.rxMaxCapacity := by omega
    have hnext := RxUnit.store_writeCursor_toNat hmax b
    have hrest : (rx.store b).writeCursor.toNat + m.length ≤ rx.capacity.toNat := by omega
    rw [RxUnit.storeAll_cons hmax]
    exact (frame ha hclear he hroom hmax b).append
      (ih (rx := rx.store b) ha (congrArg (·.store b) hclear) he hrest hcap)

end

/-! ## The round trip (43_rx_deframer.md R183) -/

theorem lineBits_append (as bs : List Byte) : lineBits (as ++ bs) = lineBits as ++ lineBits bs := by
  induction as with
  | nil => rfl
  | cons b as ih => rw [List.cons_append, lineBits, ih, lineBits, List.append_assoc]

/-- The first 10 bits for each byte of the first bytes a session frames are those bytes' frames. -/
theorem bitsOf_afterCalls_of_prefix (s : State) {sent all : List Byte} (h : sent <+: all) :
    bitsOf ((s.afterCalls all (10 * sent.length)).responses.drop s.responses.length) =
      lineBits sent := by
  obtain ⟨rest, rfl⟩ := h
  rw [State.afterCalls, List.drop_left, bitsOf_bitResponses, map_sessionBit_range, lineBits_append,
    List.append_assoc, ← lineBits_length, List.take_left]

/-- What the host may take as sent: the message, or under REFERENCE also the drawn byte after it. -/
theorem TxUnit.sent_prefix_bytesToSend {bd : Boundary} {m sent : List Byte} (u : TxUnit)
    (h : sent = m ∨ (bd = .reference ∧
      ∃ d, (u.opened bd m).txs.read m.length = some d ∧ sent = m ++ [d])) :
    sent <+: u.bytesToSend bd m := by
  rcases h with rfl | ⟨rfl, d, hread, rfl⟩
  · cases bd with
    | strict => exact List.prefix_rfl
    | reference => exact List.prefix_append _ _
  · rw [TxUnit.opened_reference_txs, Memory.read_write_same, Option.some.injEq] at hread
    rw [← hread]
    exact List.prefix_rfl

/-- RX_RESULT of a session whose RXD holds a message up to the cursor returns exactly it (R133). -/
theorem exec_rxResult_holding {s : State} {m : List Byte} (ha : s.rx.active = true)
    (hcursor : s.rx.writeCursor.toNat = m.length) (hmax : m.length ≤ Config.rxMaxCapacity)
    (hread : ∀ k b, m[k]? = some b → s.rx.rxd.read k = some b) :
    exec .rxResult s =
      .next (s.plus (answer (.word (BitVec.ofNat 32 m.length) :: m.map .byte) [])) := by
  have hcount : s.rx.writeCursor.setWidth 32 = BitVec.ofNat 32 m.length := by
    rw [← hcursor, BitVec.ofNat_toNat]
  have hbytes : (List.range m.length).map s.rx.byteAt = m := by
    refine List.ext_getElem (by simp) fun k hk hk' => ?_
    rw [List.getElem_map, List.getElem_range]
    exact RxUnit.byteAt_written (hread k _ (List.getElem?_eq_getElem hk'))
  rw [exec_rxResult_active ha (hcursor ▸ hmax), hcount, hcursor, hbytes]

section
variable {cap : Nat} (hcap : cap ≤ Config.rxMaxCapacity) (c e : Bool) (rx : RxUnit) {m : List Byte}

theorem RxUnit.opened_writeCursor_toNat : (rx.opened c e cap).writeCursor.toNat = 0 := rfl

theorem RxUnit.opened_storeAll_writeCursor (hmax : m.length ≤ Config.rxMaxCapacity) :
    ((rx.opened c e cap).storeAll m).writeCursor.toNat = m.length := by
  have hstart := rx.opened_writeCursor_toNat (cap := cap) c e
  rw [RxUnit.storeAll_writeCursor_toNat (by omega), hstart, Nat.zero_add]

theorem RxUnit.read_opened_storeAll {k : Nat} {b : Byte} (hk : m[k]? = some b) :
    ((rx.opened c e cap).storeAll m).rxd.read k = some b := by
  have hread := RxUnit.read_storeAll (rx := rx.opened c e cap) hk
  rwa [RxUnit.opened_writeCursor_toNat, Nat.zero_add] at hread

include hcap

/-- A new session with room stores a message it hears, whatever idle 1s stand around it (R183). -/
theorem RxUnit.opened_hears (hfits : m.length ≤ cap) (before after : Nat) :
    (rx.opened c e cap).Hears
      (List.replicate before true ++ lineBits m ++ List.replicate after true)
      ((rx.opened c e cap).storeAll m) := by
  have hcapacity := RxUnit.opened_capacity_toNat hcap c e rx
  have hstart := rx.opened_writeCursor_toNat (cap := cap) c e
  have hmessage : (rx.opened c e cap).Hears (lineBits m) _ :=
    .message rfl rfl rfl (by omega) (by omega)
  exact ((Hears.idle rfl rfl before).append hmessage).append (.idle rfl rfl after)

end

/-- Opening a session and feeding it line bits. -/
theorem execAll_rxOpen_rxLinebit {s : State} {c e : Bool} {cap : BitVec 30} {bits : List Bool}
    {u : RxUnit} (ha : s.rx.active = false) (hcap : requestedCapacity cap ≤ Config.rxMaxCapacity)
    (h : (s.rx.opened c e (requestedCapacity cap)).Hears bits u) :
    execAll (.rxOpen c e cap :: bits.map .rxLinebit) s =
      .next ((s.rxOpened c e (requestedCapacity cap)).heard u bits.length) := by
  rw [execAll, exec_rxOpen_accepted c e ha hcap]
  exact h _ rfl

/-- The room R183 asks for is room in the session's capacity. -/
theorem le_requestedCapacity {cap : BitVec 30} {n : Nat} (hcap : cap.toNat ≤ 65536)
    (hroom : n ≤ cap.toNat ∨ (cap = 0#30 ∧ n ≤ 65536)) : n ≤ requestedCapacity cap := by
  by_cases hzero : cap = 0#30
  · rw [requestedCapacity, if_pos hzero]
    exact hroom.elim (·.trans hcap) And.right
  · rw [requestedCapacity_of_ne_zero hzero]
    exact hroom.resolve_right fun h => hzero h.1

/-- Settles O53: the bits are `lineBits sent`, and a newly opened unit that hears them is `RxUnit.storeAll sent`. -/
theorem roundTripThroughTheLine : Obligations.RoundTripThroughTheLine := by
  refine ⟨fun s k ha hhunt => ?idle, fun s m c e cap before after hatx harx hpos hmax =>
    ⟨s.txOpened m, exec_txOpen_accepted hatx hpos hmax, fun sent hsent hcap hroom => ?trip⟩⟩
  case idle =>
    have hidle := RxUnit.Hears.idle ha hhunt k s rfl
    rwa [List.map_replicate, List.length_replicate] at hidle
  case trip =>
    have hfits := le_requestedCapacity hcap hroom
    have hmaxCap := (requestedCapacity_le_iff cap).2 hcap
    let t := (s.txOpened m).afterCalls (s.tx.bytesToSend s.params.boundary m) (10 * sent.length)
    have hbits : bitsOf (t.responses.drop (s.txOpened m).responses.length) = lineBits sent :=
      bitsOf_afterCalls_of_prefix _ (s.tx.sent_prefix_bytesToSend hsent)
    have hears := RxUnit.opened_hears hmaxCap c e s.rx hfits before after
    rw [← hbits] at hears
    have hcursor :=
      s.rx.opened_storeAll_writeCursor (cap := requestedCapacity cap) c e (hfits.trans hmaxCap)
    have hread (k : Nat) (b : Byte) (hk : sent[k]? = some b) :=
      s.rx.read_opened_storeAll (cap := requestedCapacity cap) c e hk
    exact ⟨t, _, execAll_txNextBit_txOpened hmax _, execAll_rxOpen_rxLinebit harx hmaxCap hears,
      hcursor, hread, rfl, rfl, exec_rxResult_holding rfl hcursor (hfits.trans hmaxCap) hread⟩

end Sys2Proof.Machine

/-! ## The errors (60_exceptions.md R201, R202, R206) -/

namespace Sys2Proof.Machine

/-- RX_LINEBIT outside a session (R201); its operand is format B's (R76). -/
theorem exec_rxLinebit_idle {s : State} (ha : s.rx.active = false) (b : Bool) :
    exec (.rxLinebit b) s =
      .next (s.plus (raise .noSession (0#39 ++ BitVec.ofBool b) [] [])) := by
  have hoperand : (lineOperand b).setWidth 40 = 0#39 ++ BitVec.ofBool b := by cases b <;> rfl
  rw [exec, execRxLinebit, rxLinebit, inRxSession_idle ha, hoperand]
  rfl

/-- Settles O20: each operation's own rule says what it does without a session. -/
theorem noSessionChangesNothing : Obligations.NoSessionChangesNothing :=
  ⟨fun s ha => ⟨(txNextBitFollowsItsRule s).1 ha, (txCloseFollowsItsRule s).1 ha⟩,
    fun s v b ha => ⟨(rxAcceptFollowsItsRule s v).1 ha, (rxEventFollowsTheTransitionTable s v).1 ha,
      exec_rxLinebit_idle ha b, (rxResultFollowsItsRule s).1 ha, (rxCloseFollowsItsRule s).1 ha⟩⟩

/-- An operation that needs a session and finds none on its unit answers NO_SESSION and does nothing else. -/
theorem exec_noSession {i : Instr} {s : State} (hi : needsSession i = true)
    (htx : isTxOp i = true → s.tx.active = false) (hrx : isTxOp i = false → s.rx.active = false) :
    ∃ r, exec i s = .next (s.plus r) ∧ r.err = .noSession := by
  cases i with
  | txOpen _ | txRdsr | rxOpen _ _ _ | rxRdsr => cases hi
  | txNextBit => exact ⟨_, (txNextBitFollowsItsRule s).1 (htx rfl), rfl⟩
  | txClose => exact ⟨_, (txCloseFollowsItsRule s).1 (htx rfl), rfl⟩
  | rxAccept v => exact ⟨_, (rxAcceptFollowsItsRule s v).1 (hrx rfl), rfl⟩
  | rxEvent code => exact ⟨_, (rxEventFollowsTheTransitionTable s code).1 (hrx rfl), rfl⟩
  | rxLinebit b => exact ⟨_, exec_rxLinebit_idle (hrx rfl) b, rfl⟩
  | rxResult => exact ⟨_, (rxResultFollowsItsRule s).1 (hrx rfl), rfl⟩
  | rxClose => exact ⟨_, (rxCloseFollowsItsRule s).1 (hrx rfl), rfl⟩

/-- After the end of the stream a stop bit of 1 returns the deframer to HUNT and discards the byte (R132, R181). -/
theorem exec_rxLinebit_ended {s : State} (ha : s.rx.active = true) (hdata : s.rx.rxdState = .data)
    (hcount : 8#4 ≤ s.rx.rxdCount) (he : s.rx.eos = true) :
    exec (.rxLinebit true) s = .next (s.endRx s.rx.toHunt
      (raise .streamEnded (s.rx.rxdShift.setWidth 40) [] [])) :=
  exec_rxLinebit_of_lineBit ha
    ((lineBit_stopBit hdata hcount).trans (intake_ended (rx := s.rx.toHunt) _ he))

/-- Settles O16: each clause is the outcome of the check that comes first, whatever the later ones would say. -/
theorem checksRunInTheSpecsOrder : Obligations.ChecksRunInTheSpecsOrder := by
  refine ⟨fun s w rest hc hd => ⟨_, step_of_illegal ((congrArg decode hc).trans hd), rfl⟩,
    fun s m ha => ⟨_, exec_txOpen_busy m ha, rfl⟩,
    fun s c e cap ha => ⟨_, _, exec_rxOpen_busy c e cap ha, rfl⟩, fun s i hi htx hrx => ?noSession,
    fun s v ha hv => ⟨_, (exec_rxAccept_status hv s).trans (exec_rxEvent_active ha v), rfl⟩,
    fun s v ha hv he _ => exec_rxAccept_ended ha hv he,
    fun s ha hdata hcount he _ => ⟨_, exec_rxLinebit_ended ha hdata hcount he, rfl⟩⟩
  case noSession =>
    obtain ⟨r, hexec, herr⟩ := exec_noSession hi htx hrx
    exact ⟨_, r, hexec, rfl, herr⟩

/-- A TX operation that raises leaves TX as it was, whichever check raised. -/
theorem TxEnds.unchanged_of_err_ne_ok {p : Params} {tx u : TxUnit} {i : Instr} {r : Response}
    (h : TxEnds p tx i u r) (herr : r.err ≠ .ok) :
    u = tx ∧ r.recorded.isSome = true ∧ r.events = [] ∧ r.err ≠ .bufferOverflow := by
  cases h with
  | rdsr | opened | idleDone | sent | closed => exact absurd rfl herr
  | busy | badLength | idleNoSession | closeNoSession => exact ⟨rfl, rfl, rfl, nofun⟩

/-- The unit an RX operation that raises leaves behind, by the error code: as it was, but for the return to HUNT before
the intake of a stop bit (R181) and the writes of BUFFER_OVERFLOW (R132). -/
inductive RxUnit.LeftByError (rx : RxUnit) (i : Instr) : ErrorCode → RxUnit → Prop where
  | unchanged {e : ErrorCode} : e ≠ .bufferOverflow → LeftByError rx i e rx
  | deframed (b : Bool) : i = .rxLinebit b → LeftByError rx i .streamEnded rx.toHunt
  | overflow : LeftByError rx i .bufferOverflow rx.overflow
  | deframedOverflow : LeftByError rx i .bufferOverflow rx.toHunt.overflow

/-- The intake's two errors (R132). -/
theorem intake_raise_cases {b : Byte} {rx u : RxUnit} {r : Response}
    (h : intake b rx = .ok (u, r)) (herr : r.err ≠ .ok) :
    ∃ e, r = raise e (b.setWidth 40) [] [] ∧
      ((e = .streamEnded ∧ u = rx) ∨ (e = .bufferOverflow ∧ u = rx.overflow)) := by
  rcases intake_cases h with ⟨-, hu, hr⟩ | ⟨-, -, hu, hr⟩ | ⟨-, -, -, -, rfl⟩
  · exact ⟨_, hr, .inl ⟨rfl, hu⟩⟩
  · exact ⟨_, hr, .inr ⟨rfl, hu⟩⟩
  · exact absurd rfl herr

/-- A line bit raises only through the intake, with the deframer already back in HUNT (R181). -/
theorem intake_of_lineBit_err_ne_ok {b : Bool} {rx u : RxUnit} {r : Response}
    (h : lineBit b rx = .ok (u, r)) (herr : r.err ≠ .ok) :
    intake rx.rxdShift rx.toHunt = .ok (u, r) := by
  rcases lineBit_cases h with ⟨-, -, -, rfl⟩ | ⟨-, -, -, rfl⟩ | ⟨-, -, -, rfl⟩ | ⟨-, -, -, hin⟩ |
    ⟨-, -, -, -, rfl⟩
  case inr.inr.inr.inl => exact hin
  all_goals exact absurd rfl herr

/-- An RX operation that raises emits no event and leaves one of the units of `RxUnit.LeftByError`. -/
theorem RxEnds.leftByError_of_err_ne_ok {p : Params} {rx u : RxUnit} {i : Instr} {r : Response}
    (h : RxEnds p rx i u r) (herr : r.err ≠ .ok) :
    r.recorded.isSome = true ∧ r.events = [] ∧ rx.LeftByError i r.err u := by
  cases h with
  | rdsr | opened | acceptStatus | event | result | closed => exact absurd rfl herr
  | busy | tooLarge | noSession => exact ⟨rfl, rfl, .unchanged nofun⟩
  | acceptData _ _ _ _ _ hin =>
    obtain ⟨e, rfl, ⟨rfl, rfl⟩ | ⟨rfl, rfl⟩⟩ := intake_raise_cases hin herr
    · exact ⟨rfl, rfl, .unchanged nofun⟩
    · exact ⟨rfl, rfl, .overflow⟩
  | lineBit b _ _ _ hb =>
    obtain ⟨e, rfl, ⟨rfl, rfl⟩ | ⟨rfl, rfl⟩⟩ :=
      intake_raise_cases (intake_of_lineBit_err_ne_ok hb herr) herr
    · exact ⟨rfl, rfl, .deframed b rfl⟩
    · exact ⟨rfl, rfl, .deframedOverflow⟩

namespace RxUnit.LeftByError

variable {rx u : RxUnit} {i : Instr} {e : ErrorCode} (h : rx.LeftByError i e u)
include h

theorem of_ne_bufferOverflow (he : e ≠ .bufferOverflow) :
    u = rx ∨ ((∃ b, i = .rxLinebit b) ∧ e = .streamEnded ∧ u = rx.toHunt) := by
  cases h with
  | unchanged _ => exact .inl rfl
  | deframed b hi => exact .inr ⟨⟨b, hi⟩, rfl, rfl⟩
  | overflow | deframedOverflow => exact absurd rfl he

/-- BUFFER_OVERFLOW ends the stream and keeps what was delivered, the capacity and the options. -/
theorem of_bufferOverflow (he : e = .bufferOverflow) :
    u.ovf = true ∧ u.eos = true ∧ u.state = .streamEnded ∧ u.rxd = rx.rxd ∧
      u.writeCursor = rx.writeCursor ∧ u.capacity = rx.capacity ∧ u.cont = rx.cont ∧
      u.emitSilence = rx.emitSilence ∧ u.active = rx.active := by
  cases h with
  | unchanged hne => exact absurd he hne
  | deframed => cases he
  | overflow | deframedOverflow => exact ⟨rfl, rfl, rfl, rfl, rfl, rfl, rfl, rfl, rfl⟩

end RxUnit.LeftByError

/-- Settles O21: an operation of TX that raises leaves TX as it was, and one of RX leaves a `RxUnit.LeftByError`. -/
theorem errorsLeaveTheUnitsAlone : Obligations.ErrorsLeaveTheUnitsAlone := by
  intro i s t r h hresp herr
  rcases exec_ends h with ⟨-, u, r', rfl, hu⟩ | ⟨-, u, r', rfl, hu⟩ <;>
    obtain rfl : r' = r := List.singleton_inj.1 (List.append_cancel_left hresp)
  · obtain ⟨rfl, hrecorded, hevents, hne⟩ := hu.unchanged_of_err_ne_ok herr
    exact ⟨rfl, hrecorded, hevents, fun _ => .inl rfl, fun hovf => absurd hovf hne⟩
  · obtain ⟨hrecorded, hevents, hleft⟩ := hu.leftByError_of_err_ne_ok herr
    exact ⟨rfl, hrecorded, hevents, hleft.of_ne_bufferOverflow, hleft.of_bufferOverflow⟩

end Sys2Proof.Machine

/-! ## Reset, waiting and the two ends of a stream (70_reset_and_hazards.md R230, R231, R241) -/

namespace Sys2Proof.Machine

/-- A byte space after power-on reset holds nothing (R39). -/
@[simp] theorem Memory.read_nil (k : Nat) : Memory.read [] k = none := rfl

theorem powerOnReset_tx (s : State) :
    (powerOnReset s).tx = { TxUnit.reset with draws := s.tx.draws } := rfl

theorem powerOnReset_rx (s : State) : (powerOnReset s).rx = RxUnit.reset := rfl

/-- Settles O2: power-on reset puts both units of any state to their reset values, whose byte spaces are empty. -/
theorem powerOnResetSetsEveryField : Obligations.PowerOnResetSetsEveryField := by
  intro s
  rw [powerOnReset_tx, powerOnReset_rx]
  exact ⟨⟨rfl, rfl, rfl, rfl, Memory.read_nil⟩, rfl, Memory.read_nil⟩

/-- A TX_OPEN word followed by fewer data bytes than it announces is not a whole command (R79). -/
theorem decode_txOpen_short (n : Word) {bs : List Byte} (hlen : bs.length < n.toNat) :
    decode (.word (commandWord 0x01#8 n) :: bs.map .byte) = .incomplete := by
  change decodeWord (commandWord 0x01#8 n) _ = _
  rw [decodeWord_of_opensMessage (decodeHead_txOpen n), takeData_short bs hlen]
  rfl

/-- Settles O13: the decoder finds no whole command in either stream, and the core then waits. -/
theorem coreWaitsForAWholeCommand : Obligations.CoreWaitsForAWholeCommand := by
  refine ⟨fun s hc => step_of_incomplete ?empty, fun s n bs hlen hc => step_of_incomplete ?short⟩
  case empty =>
    rw [hc]
    rfl
  case short =>
    rw [hc]
    exact decode_txOpen_short n hlen

/-- Settles O46: TX's operations leave RX alone, and `RxEnds.sets_eos` has the two causes in RX. -/
theorem endOfStreamHasTwoCauses : Obligations.EndOfStreamHasTwoCauses := by
  intro i s t hopen h hset
  rcases exec_ends h with ⟨-, u, r, rfl, -⟩ | ⟨-, u, r, rfl, hu⟩
  · exact Bool.noConfusion (hopen.symm.trans hset)
  · rcases hu.sets_eos hopen hset with hlost | ⟨hovf, hfull, info, rfl⟩
    · exact .inl hlost
    · exact .inr ⟨hovf, hfull, info, rfl⟩

end Sys2Proof.Machine
